-- ==== Sys2Proof/Word.lean ====
section
/-! DEFINITION. The word types of the overlay engine: bytes, 32-bit descriptor words, and a descriptor as four of
them (spec 30_encoding.md R70, R71). -/

namespace Sys2Proof

/-- One sample, one byte of a descriptor, one byte of frame space (20_memory.md R50). -/
abbrev Byte := BitVec 8

/-- One 32-bit word of a descriptor (30_encoding.md R71). -/
abbrev Word := BitVec 32

/-- A command or response descriptor: four 32-bit words, `w0` the least significant (30_encoding.md R71). -/
structure Descriptor where
  w0 : Word
  w1 : Word
  w2 : Word
  w3 : Word
  deriving DecidableEq, Repr

/-- The descriptor as one 128-bit number: `w0` is bits 31:0, `w3` bits 127:96 (30_encoding.md R71). -/
def Descriptor.number (d : Descriptor) : BitVec 128 := d.w3 ++ d.w2 ++ d.w1 ++ d.w0

end Sys2Proof
end

