-- ==== Sys2Proof/Config.lean ====
section
/-! DEFINITION. The implementation parameters (spec 00_scope.md section 5): the one open parameter MASK_CAP, which a
machine takes as an argument, and the constants the spec fixes. -/

namespace Sys2Proof

/-- What an implementation fixes: `maskCap` is MASK_CAP, the number of one-bit cells the mask memory can hold
(92_eei_decisions.md D8, open, any natural number; log entry 4). -/
structure Config where
  maskCap : Nat
  deriving DecidableEq, Repr

/-- MASK_CAP at its default, 2047^2 (92_eei_decisions.md D8). -/
def Config.standard : Config := ⟨4190209⟩

/-- DIAM_DIV: the divisor of the width that gives the diameter (00_scope.md section 5). -/
def Config.diamDiv : Nat := 32

/-- MIN_DIM: the least legal width and height (00_scope.md section 5). -/
def Config.minDim : Nat := 64

/-- OVERLAY_RGB: the fixed overlay colour before conversion, red, green, blue (00_scope.md section 5). -/
def Config.overlayR : Byte := 255
/-- The green component of OVERLAY_RGB (00_scope.md section 5). -/
def Config.overlayG : Byte := 0
/-- The blue component of OVERLAY_RGB (00_scope.md section 5). -/
def Config.overlayB : Byte := 0

/-- RESET_CTRL: SILENT = 0, SHOW = 1, STD = BT601, RNG = Full (00_scope.md section 5, 92_eei_decisions.md D9). -/
def Config.resetCtrl : BitVec 5 := 0x02

/-- CMD_BITS / 8: the bytes of a command descriptor (00_scope.md section 5, 30_encoding.md R70). -/
def Config.descriptorBytes : Nat := 16

end Sys2Proof
end

