-- ==== Sys2Proof/Syntax.lean ====
section
/-! DEFINITION. The abstract syntax of the command set OVL-1: one constructor per row of spec/opcode_table.json, with
the operands of 30_encoding.md R75 to R84 as the spec names them. -/

namespace Sys2Proof

/-- The three coefficient sets (41_rgb_to_yuv_converter.md R131, R146). -/
inductive Standard where
  | bt601
  | bt709
  | fcc
  deriving DecidableEq, Repr

/-- The two output ranges (41_rgb_to_yuv_converter.md R136, R137, R146). -/
inductive Range where
  | full
  | studio
  deriving DecidableEq, Repr

/-- The seven commands (30_encoding.md R74). NUM and DEN are the raw 32-bit fields, read as signed numbers by the
command (R75, R85); the WRCTRL operand is the 5-bit value of CTRL (R82, R184). -/
inductive Instr where
  /-- NEGOTIATE w, h, num/den (R75, R100). -/
  | negotiate (w h : BitVec 16) (num den : BitVec 32)
  /-- FRAME len, wr (R76, R150). -/
  | frame (len : BitVec 64) (wr : Bool)
  /-- EOS (R77, R182). -/
  | eos
  /-- CONVERT r, g, b, std, rng (R81, R140). -/
  | convert (r g b : Byte) (std : Standard) (rng : Range)
  /-- WRCTRL: the new value of CTRL (R82, R184). -/
  | wrctrl (value : BitVec 5)
  /-- RDREG idx (R83, R186). -/
  | rdreg (idx : Byte)
  /-- RDMASK cell (R84, R188). -/
  | rdmask (cell : BitVec 32)
  deriving DecidableEq, Repr

end Sys2Proof
end

