-- ==== Sys2Proof/WellFormed.lean ====
section
/-! DEFINITION. Which terms of `Instr` have an encoding: the one reserved field value that the types leave
expressible is STD = 3 in the value of WRCTRL (30_encoding.md R82, R86 (c)). -/

namespace Sys2Proof

/-- The two STD bits of a CTRL value, bits 3:2 (10_state.md R24). -/
def ctrlStdBits (value : BitVec 5) : BitVec 2 := value.extractLsb' 2 2

/-- A legal value of CTRL: STD is not the reserved 3 (10_state.md R24, 30_encoding.md R82). -/
abbrev LegalCtrl (value : BitVec 5) : Prop := ctrlStdBits value ≠ 3

/-- A term that some legal command encodes. -/
def Instr.wellFormed : Instr → Bool
  | .negotiate _ _ _ _ => true
  | .frame _ _ => true
  | .eos => true
  | .convert _ _ _ _ _ => true
  | .wrctrl value => decide (LegalCtrl value)
  | .rdreg _ => true
  | .rdmask _ => true

end Sys2Proof
end

