-- ==== Sys2Proof/Decode.lean ====
section
/-! DEFINITION. The command decoder (spec 30_encoding.md R70 to R87), total on any bytes and refusing by name, and
after it the encoder written from the same formats. -/

namespace Sys2Proof

/-- Why bytes are not a legal command (30_encoding.md R70, R86). -/
inductive DecodeError where
  /-- Fewer than sixteen bytes: not a command (R70). -/
  | incomplete
  /-- OPC is not in 0x01 .. 0x07 (R74, R86 (a)). -/
  | reservedOpcode (opc : Byte)
  /-- A must-be-zero bit is set (R73, R86 (b)). -/
  | mustBeZero (opc : Byte)
  /-- STD = 3 in CONVERT or in the value of WRCTRL (R81, R82, R86 (c)). -/
  | reservedStandard (opc : Byte)
  deriving DecidableEq, Repr

/-- Four bytes, least significant first, as one word (30_encoding.md R71). -/
def wordOfBytes (b0 b1 b2 b3 : Byte) : Word := b3 ++ b2 ++ b1 ++ b0

/-- The four bytes of a word, least significant first (30_encoding.md R71). -/
def bytesOfWord (w : Word) : List Byte :=
  [w.extractLsb' 0 8, w.extractLsb' 8 8, w.extractLsb' 16 8, w.extractLsb' 24 8]

/-- The sixteen bytes of a descriptor, `w0` first (30_encoding.md R71). -/
def Descriptor.bytes (d : Descriptor) : List Byte :=
  bytesOfWord d.w0 ++ bytesOfWord d.w1 ++ bytesOfWord d.w2 ++ bytesOfWord d.w3

/-- The descriptor at the head of a list of bytes, and the bytes after it; fewer than sixteen are no descriptor
(30_encoding.md R70, R71). -/
def descriptorOfBytes : List Byte → Option (Descriptor × List Byte)
  | b0 :: b1 :: b2 :: b3 :: b4 :: b5 :: b6 :: b7 ::
      b8 :: b9 :: b10 :: b11 :: b12 :: b13 :: b14 :: b15 :: rest =>
    some (⟨wordOfBytes b0 b1 b2 b3, wordOfBytes b4 b5 b6 b7,
      wordOfBytes b8 b9 b10 b11, wordOfBytes b12 b13 b14 b15⟩, rest)
  | _ => none

/-- The opcodes (30_encoding.md R74). -/
def opNegotiate : Byte := 0x01
def opFrame : Byte := 0x02
def opEos : Byte := 0x03
def opConvert : Byte := 0x04
def opWrctrl : Byte := 0x05
def opRdreg : Byte := 0x06
def opRdmask : Byte := 0x07

/-- OPC, `w0[7:0]` of any descriptor, legal or not (30_encoding.md R72, R78 ECHO). -/
def Descriptor.opc (d : Descriptor) : Byte := d.w0.extractLsb' 0 8

/-- The code of a standard (30_encoding.md R81): 3 is reserved. -/
def Standard.ofBits (v : BitVec 2) : Option Standard :=
  if v = 0 then some .bt601 else if v = 1 then some .bt709 else if v = 2 then some .fcc else none

/-- The two bits of a standard (30_encoding.md R81). -/
def Standard.bits : Standard → BitVec 2
  | .bt601 => 0
  | .bt709 => 1
  | .fcc => 2

/-- The range a bit names (30_encoding.md R81). -/
def Range.ofBit (v : BitVec 1) : Range := if v = 0 then .full else .studio

/-- The bit of a range (30_encoding.md R81). -/
def Range.bit : Range → BitVec 1
  | .full => 0
  | .studio => 1

/-- NEGOTIATE (30_encoding.md R75). -/
def decodeNegotiate (d : Descriptor) : Except DecodeError Instr :=
  if d.w0.extractLsb' 8 24 ≠ 0 then .error (.mustBeZero opNegotiate)
  else .ok (.negotiate (d.w1.extractLsb' 0 16) (d.w1.extractLsb' 16 16) d.w2 d.w3)

/-- FRAME (30_encoding.md R76): LEN = {w2, w1}. -/
def decodeFrame (d : Descriptor) : Except DecodeError Instr :=
  if d.w0.extractLsb' 9 23 ≠ 0 ∨ d.w3 ≠ 0 then .error (.mustBeZero opFrame)
  else .ok (.frame (d.w2 ++ d.w1) (d.w0.extractLsb' 8 1 = 1))

/-- EOS (30_encoding.md R77). -/
def decodeEos (d : Descriptor) : Except DecodeError Instr :=
  if d.w0.extractLsb' 8 24 ≠ 0 ∨ d.w1 ≠ 0 ∨ d.w2 ≠ 0 ∨ d.w3 ≠ 0 then .error (.mustBeZero opEos)
  else .ok .eos

/-- CONVERT (30_encoding.md R81): STD = 3 is reserved. -/
def decodeConvert (d : Descriptor) : Except DecodeError Instr :=
  if d.w0.extractLsb' 11 21 ≠ 0 ∨ d.w1.extractLsb' 24 8 ≠ 0 ∨ d.w2 ≠ 0 ∨ d.w3 ≠ 0 then
    .error (.mustBeZero opConvert)
  else match Standard.ofBits (d.w0.extractLsb' 8 2) with
    | none => .error (.reservedStandard opConvert)
    | some std => .ok (.convert (d.w1.extractLsb' 0 8) (d.w1.extractLsb' 8 8) (d.w1.extractLsb' 16 8)
        std (Range.ofBit (d.w0.extractLsb' 10 1)))

/-- WRCTRL (30_encoding.md R82): STD = 3 in the value is reserved. -/
def decodeWrctrl (d : Descriptor) : Except DecodeError Instr :=
  if d.w0.extractLsb' 8 24 ≠ 0 ∨ d.w1.extractLsb' 5 27 ≠ 0 ∨ d.w2 ≠ 0 ∨ d.w3 ≠ 0 then
    .error (.mustBeZero opWrctrl)
  else if LegalCtrl (d.w1.extractLsb' 0 5) then .ok (.wrctrl (d.w1.extractLsb' 0 5))
  else .error (.reservedStandard opWrctrl)

/-- RDREG (30_encoding.md R83): every IDX is a legal encoding. -/
def decodeRdreg (d : Descriptor) : Except DecodeError Instr :=
  if d.w0.extractLsb' 16 16 ≠ 0 ∨ d.w1 ≠ 0 ∨ d.w2 ≠ 0 ∨ d.w3 ≠ 0 then .error (.mustBeZero opRdreg)
  else .ok (.rdreg (d.w0.extractLsb' 8 8))

/-- RDMASK (30_encoding.md R84): every CELL is a legal encoding. -/
def decodeRdmask (d : Descriptor) : Except DecodeError Instr :=
  if d.w0.extractLsb' 8 24 ≠ 0 ∨ d.w2 ≠ 0 ∨ d.w3 ≠ 0 then .error (.mustBeZero opRdmask)
  else .ok (.rdmask d.w1)

/-- The decoder: a pure function of the 128 bits, refusing every illegal descriptor by name (30_encoding.md R73,
R74, R86, R87). -/
def decode (d : Descriptor) : Except DecodeError Instr :=
  if d.opc = opNegotiate then decodeNegotiate d
  else if d.opc = opFrame then decodeFrame d
  else if d.opc = opEos then decodeEos d
  else if d.opc = opConvert then decodeConvert d
  else if d.opc = opWrctrl then decodeWrctrl d
  else if d.opc = opRdreg then decodeRdreg d
  else if d.opc = opRdmask then decodeRdmask d
  else .error (.reservedOpcode d.opc)

/-- Decoding the head of a list of bytes, with the bytes that follow the command (30_encoding.md R70, R71). -/
def decodeBytes (bs : List Byte) : Except DecodeError (Instr × List Byte) :=
  match descriptorOfBytes bs with
  | none => .error .incomplete
  | some (d, rest) =>
    match decode d with
    | .error e => .error e
    | .ok i => .ok (i, rest)

/-- The opcode of an instruction (30_encoding.md R74), which is also the ECHO of its response (R78). -/
def Instr.opcode : Instr → Byte
  | .negotiate _ _ _ _ => opNegotiate
  | .frame _ _ => opFrame
  | .eos => opEos
  | .convert _ _ _ _ _ => opConvert
  | .wrctrl _ => opWrctrl
  | .rdreg _ => opRdreg
  | .rdmask _ => opRdmask

/-- The encoder, field by field from 30_encoding.md R75 to R77 and R81 to R84. -/
def encode : Instr → Descriptor
  | .negotiate w h num den => ⟨(0 : BitVec 24) ++ opNegotiate, h ++ w, num, den⟩
  | .frame len wr =>
    ⟨(0 : BitVec 23) ++ BitVec.ofBool wr ++ opFrame, len.extractLsb' 0 32, len.extractLsb' 32 32, 0⟩
  | .eos => ⟨(0 : BitVec 24) ++ opEos, 0, 0, 0⟩
  | .convert r g b std rng =>
    ⟨(0 : BitVec 21) ++ rng.bit ++ std.bits ++ opConvert, (0 : BitVec 8) ++ b ++ g ++ r, 0, 0⟩
  | .wrctrl value => ⟨(0 : BitVec 24) ++ opWrctrl, (0 : BitVec 27) ++ value, 0, 0⟩
  | .rdreg idx => ⟨(0 : BitVec 16) ++ idx ++ opRdreg, 0, 0, 0⟩
  | .rdmask cell => ⟨(0 : BitVec 24) ++ opRdmask, cell, 0, 0⟩

/-- The sixteen bytes of a command on a byte-wide path (30_encoding.md R71). -/
def encodeBytes (i : Instr) : List Byte := (encode i).bytes

/-- A row of the opcode map: a 128-bit number d is this command iff (d AND mask) = match, but for the reserved STD
(spec/opcode_table.json). -/
structure OpcodeRow where
  mnemonic : String
  pattern : BitVec 128
  mask : BitVec 128
  deriving DecidableEq, Repr

/-- spec/opcode_table.json, row by row: `pattern` is its "match". -/
def opcodeTable : List OpcodeRow :=
  [⟨"NEGOTIATE", 0x00000000000000000000000000000001, 0x000000000000000000000000FFFFFFFF⟩,
   ⟨"FRAME", 0x00000000000000000000000000000002, 0xFFFFFFFF0000000000000000FFFFFEFF⟩,
   ⟨"EOS", 0x00000000000000000000000000000003, 0xFFFFFFFFFFFFFFFFFFFFFFFFFFFFFFFF⟩,
   ⟨"CONVERT", 0x00000000000000000000000000000004, 0xFFFFFFFFFFFFFFFFFF000000FFFFF8FF⟩,
   ⟨"WRCTRL", 0x00000000000000000000000000000005, 0xFFFFFFFFFFFFFFFFFFFFFFE0FFFFFFFF⟩,
   ⟨"RDREG", 0x00000000000000000000000000000006, 0xFFFFFFFFFFFFFFFFFFFFFFFFFFFF00FF⟩,
   ⟨"RDMASK", 0x00000000000000000000000000000007, 0xFFFFFFFFFFFFFFFF00000000FFFFFFFF⟩]

/-- Whether a descriptor fits a row of the opcode table. -/
def OpcodeRow.fits (row : OpcodeRow) (d : Descriptor) : Bool := (d.number &&& row.mask) == row.pattern

/-- The reserved STD = 3, which the table's match and mask cannot express: in CONVERT `w0[9:8]`, in WRCTRL `w1[3:2]`
(30_encoding.md R86 (c), the notes of spec/opcode_table.json). -/
def Descriptor.reservedStd (d : Descriptor) : Bool :=
  (d.opc == opConvert && d.w0.extractLsb' 8 2 == 3) || (d.opc == opWrctrl && d.w1.extractLsb' 2 2 == 3)

/-- A legal command by the opcode table: some row fits and STD is not the reserved 3 (30_encoding.md R86). -/
def Descriptor.legal (d : Descriptor) : Bool := opcodeTable.any (fun row => row.fits d) && !d.reservedStd

/-- The `k`-th byte of a number, least significant first. -/
def byteOfNat (w k : Nat) : Byte := BitVec.ofNat 8 (w >>> (8 * k))

/-- The sixteen bytes of a command whose low `nbits` bits are `w` and whose other bits are zero. -/
def tableBytes (nbits w : Nat) : List Byte :=
  (List.range Config.descriptorBytes).map (byteOfNat (w % 2 ^ nbits))

/-- The instruction the decoder reads from a command whose bits are `w`, numbered as spec/opcode_table.json does. -/
def decodeTableWord (nbits w : Nat) : Option Instr :=
  match decodeBytes (tableBytes nbits w) with
  | .ok (i, _) => some i
  | .error _ => none

end Sys2Proof
end

