-- ==== Sys2Proof/Machine/State.lean ====
section
/-! DEFINITION. Everything the spec gives the overlay engine as state (10_state.md), its two ports, the frame space
lent to it, and the host's script; the reasons a step can stop; the state after reset (10_state.md R36). -/

namespace Sys2Proof.Machine

/-- Status codes (60_exceptions.md R200). -/
inductive Status where
  | ok
  | errIllegal
  | errDim
  | errFraction
  | errRate
  | errNomem
  | errGeometry
  | errRange
  deriving DecidableEq, Repr

/-- Why a FRAME did not draw; `noReason` is REASON 0 (42_yuv_plane_compositor.md R155). -/
inductive Reason where
  | noReason
  | unconfigured
  | notWritable
  | short
  | showOff
  | hidden
  deriving DecidableEq, Repr

/-- The fields of a response (30_encoding.md R78). -/
structure Response where
  st : Status
  fwd : Bool
  drawn : Bool
  reason : Reason
  echo : Byte
  data : BitVec 64
  deriving DecidableEq, Repr

/-- Frame space as a list of (address, byte) pairs with strictly rising addresses; an address that is not listed
reads as no value: the byte the host left there (20_memory.md R54, log entry 2). -/
abbrev Memory := List Host.Cell

/-- A move of the host (70_reset_and_hazards.md R224): bytes sent on the command port together with the buffer lent
should they complete a command (20_memory.md R50, R58), or reset applied between commands (R220, R221). -/
inductive HostMove where
  | send (bytes : List Byte) (buffer : Memory)
  | reset
  deriving DecidableEq, Repr

/-- Why the machine stops. No reachable state raises any of these (obligation CommandsAnswerUnderInv). -/
inductive Fault where
  /-- FRAME would write at an address at or above LEN, which does not exist (20_memory.md R50, R62; log entry 5).
  Raised by `Memory.memWrite`. Safe: the model stops where the spec has no such access. -/
  | outsideFrame (addr : Nat)
  /-- FRAME or RDMASK reads a mask cell that holds no value (10_state.md R32; log entry 6). Raised by
  `overlayFrom` and `execRdmask`. Safe: the spec has no such read. -/
  | maskNoValue (cell : Nat)
  /-- NEGOTIATE finds the reserved value 3 in CTRL.STD, which cannot be written there (10_state.md R24; log
  entry 7). Raised by `execNegotiate`. Safe: the spec has no such state. -/
  | reservedStandard
  deriving DecidableEq, Repr

/-- Why the machine has no step. -/
inductive Refusal where
  /-- An instruction that has no meaning yet; raised by no arm. Safe: nothing is claimed of it. -/
  | notModelled (mnemonic : String)
  /-- The host sent bytes past the end of a command before that command's response (70_reset_and_hazards.md R225,
  93_implementation_defined.md U4: refuse; log entry 8). Raised by `step`. Safe: the host has no such move. -/
  | commandBeforeResponse
  deriving DecidableEq, Repr

/-- The state of the block. `cfg` and `host` are the model's own (log entries 4 and 1). -/
structure State where
  /-- CTRL: SILENT bit 0, SHOW bit 1, STD bits 3:2, RNG bit 4 (10_state.md R24). -/
  ctrl : BitVec 5
  /-- STATUS: bit 0 is VALID (10_state.md R25). -/
  status : BitVec 1
  /-- WIDTH (10_state.md R26). -/
  width : BitVec 16
  /-- HEIGHT (10_state.md R26). -/
  height : BitVec 16
  /-- FPS (10_state.md R26). -/
  fps : BitVec 32
  /-- DIAM (10_state.md R27). -/
  diam : BitVec 11
  /-- RADIUS (10_state.md R27). -/
  radius : BitVec 10
  /-- LOFF (10_state.md R28). -/
  loff : BitVec 33
  /-- UOFF (10_state.md R28). -/
  uoff : BitVec 33
  /-- VOFF (10_state.md R28). -/
  voff : BitVec 33
  /-- COLOR: Y bits 7:0, U bits 15:8, V bits 23:16 (10_state.md R29). -/
  color : BitVec 24
  /-- COUNTER (10_state.md R30). -/
  counter : BitVec 32
  /-- MINLEN (10_state.md R31). -/
  minlen : BitVec 33
  /-- MASK: cell i is the i-th entry; the cells past the end hold no value (10_state.md R32, log entry 3). -/
  mask : List Bool
  /-- The command port: the bytes of an incomplete descriptor received so far (30_encoding.md R70, R71). -/
  port : List Byte
  /-- The response port: the response the last step gave, if it gave one (30_encoding.md R70, R78). -/
  rsp : Option Response
  /-- The frame space lent with the last command, as that command left it (20_memory.md R50, R58). -/
  frame : Memory
  /-- The implementation's parameters; no step changes them (10_state.md R37). -/
  cfg : Config
  /-- The host's moves to come, next first (70_reset_and_hazards.md R224, R225). -/
  host : List HostMove
  deriving DecidableEq, Repr

/-- The state right after reset (10_state.md R36, 70_reset_and_hazards.md R220). -/
def State.reset : State where
  ctrl := Config.resetCtrl
  status := 0
  width := 0
  height := 0
  fps := 0
  diam := 0
  radius := 0
  loff := 0
  uoff := 0
  voff := 0
  color := 0
  counter := 0
  minlen := 0
  mask := []
  port := []
  rsp := none
  frame := []
  cfg := Config.standard
  host := []

/-- What one step answers. -/
abbrev Result := Host.Outcome State Fault Refusal

end Sys2Proof.Machine
end

