-- ==== Sys2Proof/Machine/Ops.lean ====
section
/-! DEFINITION. The named operations over frame space, mask memory and registers, the response and the rejection
(spec 00_scope.md R13), the release, and how a step takes the host's next move. The block has no traps (60_exceptions.md
R203): the rejection with a status code is its one error path, and every command's error goes through it. -/

namespace Sys2Proof.Machine

/-! ### Frame space (20_memory.md R50 to R57) -/

/-- What an address that is not listed reads as: no value of the model's, the byte the host left (log entry 2). -/
def Memory.unlisted : Option Byte := none

/-- The byte at an address of frame space. -/
def Memory.read : Memory → Nat → Option Byte
  | [], _ => Memory.unlisted
  | (b, v) :: rest, a => if b = a then some v else Memory.read rest a

/-- Writing one byte, the list kept strictly rising. -/
def Memory.write : Memory → Nat → Byte → Memory
  | [], a, v => [(a, v)]
  | (b, u) :: rest, a, v =>
    if a < b then (a, v) :: (b, u) :: rest
    else if a = b then (a, v) :: rest
    else (b, u) :: Memory.write rest a v

/-- Addresses strictly rise; no entry equals what an unlisted address reads as. -/
def Memory.wf : Memory → Bool
  | [] => true
  | [(_, v)] => some v != Memory.unlisted
  | (a, v) :: (b, u) :: rest => some v != Memory.unlisted && decide (a < b) && Memory.wf ((b, u) :: rest)

/-- `MemWrite(addr, 1, v)` in a frame space of `len` bytes (00_scope.md R13, 20_memory.md R50, R51). -/
def Memory.memWrite (len : Nat) (m : Memory) (addr : Nat) (v : Byte) : Except Fault Memory :=
  if addr < len then .ok (m.write addr v) else .error (.outsideFrame addr)

/-- The writes of one command, in order (20_memory.md R59). -/
def Memory.memWrites (len : Nat) : Memory → List Host.Cell → Except Fault Memory
  | m, [] => .ok m
  | m, (a, v) :: rest =>
    match m.memWrite len a v with
    | .error f => .error f
    | .ok m' => Memory.memWrites len m' rest

/-! ### Mask memory (10_state.md R32, 20_memory.md R52) -/

/-- `MASK[cell]`, if the cell holds a value. -/
def State.maskCell (s : State) (cell : Nat) : Option Bool := s.mask[cell]?

/-! ### Responses (30_encoding.md R78, 60_exceptions.md R200) -/

/-- `respond(ST, FWD, DRAWN, REASON, DATA)`, ECHO being the opcode of the command (00_scope.md R13, R78). -/
def State.respond (s : State) (echo : Byte) (st : Status) (fwd drawn : Bool) (reason : Reason)
    (data : BitVec 64) : State :=
  { s with rsp := some ⟨st, fwd, drawn, reason, echo, data⟩ }

/-- `reject(code)`: the one error response, with no change of state of its own (00_scope.md R13, R78). -/
def State.reject (s : State) (echo : Byte) (code : Status) : State :=
  s.respond echo code false false .noReason 0

/-- The number of a status code (60_exceptions.md R200). -/
def Status.code : Status → BitVec 8
  | .ok => 0
  | .errIllegal => 1
  | .errDim => 2
  | .errFraction => 3
  | .errRate => 4
  | .errNomem => 5
  | .errGeometry => 6
  | .errRange => 7

/-- The number of a REASON (42_yuv_plane_compositor.md R155). -/
def Reason.code : Reason → BitVec 3
  | .noReason => 0
  | .unconfigured => 1
  | .notWritable => 2
  | .short => 3
  | .showOff => 4
  | .hidden => 5

/-- The response as a 128-bit descriptor (30_encoding.md R78). -/
def Response.descriptor (r : Response) : Descriptor where
  w0 := r.echo ++ (0 : BitVec 9) ++ r.reason.code ++ (0 : BitVec 2) ++ BitVec.ofBool r.drawn ++
    BitVec.ofBool r.fwd ++ r.st.code
  w1 := r.data.extractLsb' 0 32
  w2 := r.data.extractLsb' 32 32
  w3 := 0

/-! ### Registers -/

/-- `release()`: VALID and every register of 10_state.md R33 cleared, MASK without value
(40_disc_rasterizer.md R100, R110; 43_control_readback.md R182). -/
def State.release (s : State) : State :=
  { s with
    status := 0, width := 0, height := 0, fps := 0, diam := 0, radius := 0, loff := 0, uoff := 0,
    voff := 0, color := 0, minlen := 0, mask := [] }

/-- CTRL <- value (43_control_readback.md R184). -/
def State.writeCtrl (s : State) (value : BitVec 5) : State := { s with ctrl := value }

/-- The frame space after a command's writes (20_memory.md R51). -/
def State.setFrame (s : State) (m : Memory) : State := { s with frame := m }

/-- COUNTER <- (COUNTER + 1) mod 2^32 (42_yuv_plane_compositor.md R151). -/
def State.countFrame (s : State) : State := { s with counter := s.counter + 1 }

/-! ### The ports and the host (30_encoding.md R70, 70_reset_and_hazards.md R220 to R225) -/

/-- What the host's next move gives the block. -/
inductive Arrival where
  /-- The host makes no move (60_exceptions.md R212). -/
  | nothing
  /-- Reset was applied; the state after it (R220). -/
  | resetTo (s : State)
  /-- A descriptor is still incomplete; the state that waits for the rest (R70). -/
  | waiting (s : State)
  /-- A whole descriptor; the state in which its command runs. -/
  | command (d : Descriptor) (s : State)
  /-- Bytes of a further command before this one's response (R225, U4). -/
  | overrun
  deriving DecidableEq, Repr

/-- The state after reset, with what the reset input does not reach: the parameters, the host's script, and the
host's buffer (70_reset_and_hazards.md R220, log entry 13). -/
def State.afterReset (s : State) (rest : List HostMove) : State :=
  { State.reset with cfg := s.cfg, host := rest, frame := s.frame }

/-- The state that has taken `bytes` on the command port and waits for the rest (30_encoding.md R70). -/
def State.waitWith (s : State) (bytes : List Byte) (rest : List HostMove) : State :=
  { s with port := bytes, rsp := none, host := rest }

/-- The state in which a command runs: the port emptied, no response given yet, the buffer lent
(20_memory.md R51, R58). -/
def State.lend (s : State) (buffer : Memory) (rest : List HostMove) : State :=
  { s with port := [], rsp := none, frame := buffer, host := rest }

/-- Take the host's next move. -/
def State.takeMove (s : State) : Arrival :=
  match s.host with
  | [] => .nothing
  | .reset :: rest => .resetTo (s.afterReset rest)
  | .send bytes buffer :: rest =>
    match descriptorOfBytes (s.port ++ bytes) with
    | none => .waiting (s.waitWith (s.port ++ bytes) rest)
    | some (d, []) => .command d (s.lend buffer rest)
    | some (_, _ :: _) => .overrun

/-- The answer to an illegal descriptor: ERR_ILLEGAL and nothing else (30_encoding.md R73, 60_exceptions.md R201). -/
def State.answerIllegal (s : State) (d : Descriptor) : State := s.reject d.opc .errIllegal

end Sys2Proof.Machine
end

