-- ==== Sys2Proof/Machine/Flags.lean ====
section
/-! DEFINITION. Every flag the spec gives: VALID, the fields of CTRL, the blink phase, and the REASON a FRAME does not
draw (10_state.md R22, R24, R25; 42_yuv_plane_compositor.md R152 to R158). There are no condition codes. -/

namespace Sys2Proof.Machine

/-- VALID, bit 0 of STATUS (10_state.md R25). -/
def State.valid (s : State) : Bool := s.status.getLsbD 0

/-- CTRL.SILENT, bit 0 (10_state.md R24): storage only. -/
def State.silent (s : State) : Bool := s.ctrl.getLsbD 0

/-- CTRL.SHOW, bit 1 (10_state.md R24). -/
def State.showOverlay (s : State) : Bool := s.ctrl.getLsbD 1

/-- CTRL.STD, bits 3:2 (10_state.md R24); 3 stands for no standard. -/
def State.standard (s : State) : Option Standard := Standard.ofBits (ctrlStdBits s.ctrl)

/-- CTRL.RNG, bit 4 (10_state.md R24). -/
def State.range (s : State) : Range := Range.ofBit (s.ctrl.extractLsb' 4 1)

/-- The phase of a counter value (42_yuv_plane_compositor.md R158). -/
def phase (c fps : Nat) : Nat := c % fps

/-- The visible first half of each window of FPS frames (42_yuv_plane_compositor.md R158; FPS = 0: log entry 9). -/
def visible (c fps : Nat) : Bool := decide (phase c fps < fps / 2)

/-- The first condition in the order of 42_yuv_plane_compositor.md R155 for which a FRAME does not draw, in the state
whose COUNTER is already incremented; none when it draws. -/
def State.notDrawn (s : State) (len : BitVec 64) (wr : Bool) : Option Reason :=
  if s.valid = false then some .unconfigured
  else if wr = false then some .notWritable
  else if len.toNat < s.minlen.toNat then some .short
  else if s.showOverlay = false then some .showOff
  else if visible s.counter.toNat s.fps.toNat = false then some .hidden
  else none

end Sys2Proof.Machine
end

