-- ==== Sys2Proof/Machine/Operands.lean ====
section
/-! DEFINITION. Every operand form (30_encoding.md R85): signed NUM and DEN, the register an RDREG index names, the
values of results zero-extended to DATA. Unsigned operands are used as they stand, through `toNat`. -/

namespace Sys2Proof.Machine

/-- `signed(v)`: the integer a two's complement field stands for (00_scope.md R11, 30_encoding.md R85). -/
def signed (v : BitVec 32) : Int := v.toInt

/-- `REG[IDX]` zero-extended to 64 bits; no register has an index above 12 (10_state.md R23,
43_control_readback.md R186). -/
def State.register (s : State) (idx : Byte) : Option (BitVec 64) :=
  match idx.toNat with
  | 0 => some (s.ctrl.setWidth 64)
  | 1 => some (s.status.setWidth 64)
  | 2 => some (s.width.setWidth 64)
  | 3 => some (s.height.setWidth 64)
  | 4 => some (s.fps.setWidth 64)
  | 5 => some (s.diam.setWidth 64)
  | 6 => some (s.radius.setWidth 64)
  | 7 => some (s.loff.setWidth 64)
  | 8 => some (s.uoff.setWidth 64)
  | 9 => some (s.voff.setWidth 64)
  | 10 => some (s.color.setWidth 64)
  | 11 => some (s.counter.setWidth 64)
  | 12 => some (s.minlen.setWidth 64)
  | _ => none

/-- A mask cell as DATA: the cell in bit 0 (30_encoding.md R78). -/
def cellData (cell : Bool) : BitVec 64 := (BitVec.ofBool cell).setWidth 64

end Sys2Proof.Machine
end

