-- ==== Sys2Proof/Machine/Converter.lean ====
section
/-! DEFINITION. The unit rgb_to_yuv_converter and the command CONVERT (41_rgb_to_yuv_converter.md). The meaning
evaluates the integer form of R141; `rgbToYuvExact` is the definition of R132 in exact rationals, and obligation
ConverterIntegerFormIsExact says that they agree. -/

namespace Sys2Proof.Machine

/-- A converted triple (41_rgb_to_yuv_converter.md R130). -/
structure Yuv where
  y : Byte
  u : Byte
  v : Byte
  deriving DecidableEq, Repr

/-- The COLOR packing of 10_state.md R29, also that of a CONVERT's DATA: V, then U, then Y in bits 7:0. -/
def Yuv.packed (c : Yuv) : BitVec 24 := c.v ++ c.u ++ c.y

/-- One row of the coefficient table: kr, kg, kb over the common denominator Q (41_rgb_to_yuv_converter.md R131). -/
structure Coefficients where
  kr : Nat
  kg : Nat
  kb : Nat
  q : Nat
  deriving DecidableEq, Repr

/-- The coefficient table (41_rgb_to_yuv_converter.md R131). -/
def coefficients : Standard → Coefficients
  | .bt601 => ⟨299, 587, 114, 1000⟩
  | .bt709 => ⟨2126, 7152, 722, 10000⟩
  | .fcc => ⟨30, 59, 11, 100⟩

/-- S = kr R + kg G + kb B (41_rgb_to_yuv_converter.md R141). -/
def weightedSum (k : Coefficients) (r g b : Nat) : Nat := k.kr * r + k.kg * g + k.kb * b

/-- Y by the integer form (41_rgb_to_yuv_converter.md R141). -/
def lumaInt (k : Coefficients) (rng : Range) (sum : Nat) : Nat :=
  match rng with
  | .full => (2 * sum + k.q) / (2 * k.q)
  | .studio => (438 * sum + 8415 * k.q) / (510 * k.q)

/-- U or V by the integer form: `c` is the blue or red component and `kc` its coefficient
(41_rgb_to_yuv_converter.md R141). -/
def chromaInt (k : Coefficients) (rng : Range) (kc c sum : Nat) : Nat :=
  let diff : Int := (k.q * c : Int) - sum
  let width : Int := (k.q : Int) - kc
  match rng with
  | .full => min 255 ((diff + 257 * width) / (2 * width)).toNat
  | .studio => ((224 * diff + 65535 * width) / (510 * width)).toNat

/-- `rgb_to_yuv`, in the integer form (41_rgb_to_yuv_converter.md R141). -/
def rgbToYuv (r g b : Byte) (std : Standard) (rng : Range) : Yuv :=
  let k := coefficients std
  let sum := weightedSum k r.toNat g.toNat b.toNat
  { y := BitVec.ofNat 8 (lumaInt k rng sum)
    u := BitVec.ofNat 8 (chromaInt k rng k.kb b.toNat sum)
    v := BitVec.ofNat 8 (chromaInt k rng k.kr r.toNat sum) }

/-- `round(q)`: to the nearest integer, an exact half upward (41_rgb_to_yuv_converter.md R138). -/
def roundHalfUp (q : Rat) : Int := (q + 1 / 2).floor

/-- `clamp8(n)`, as a byte (41_rgb_to_yuv_converter.md R138). -/
def clamp8 (n : Int) : Byte := BitVec.ofInt 8 (min n 255)

/-- `rgb_to_yuv` as 41_rgb_to_yuv_converter.md R132 defines it, step by step in exact rational arithmetic
(R133 to R138). -/
def rgbToYuvExact (r8 g8 b8 : Byte) (std : Standard) (rng : Range) : Yuv :=
  let k := coefficients std
  let kr : Rat := (k.kr : Rat) / k.q
  let kg : Rat := (k.kg : Rat) / k.q
  let kb : Rat := (k.kb : Rat) / k.q
  let r : Rat := (r8.toNat : Rat) / 255
  let g : Rat := (g8.toNat : Rat) / 255
  let b : Rat := (b8.toNat : Rat) / 255
  let yp := kr * r + kg * g + kb * b
  let up := (b - yp) / (1 - kb)
  let vp := (r - yp) / (1 - kr)
  match rng with
  | .full =>
    { y := clamp8 (roundHalfUp (yp * 255))
      u := clamp8 (roundHalfUp (up * (255 / 2) + 128))
      v := clamp8 (roundHalfUp (vp * (255 / 2) + 128)) }
  | .studio =>
    { y := clamp8 (roundHalfUp (yp * 219 + 16))
      u := clamp8 (roundHalfUp (up * 112 + 128))
      v := clamp8 (roundHalfUp (vp * 112 + 128)) }

/-- The overlay colour of a setting (40_disc_rasterizer.md R112, 41_rgb_to_yuv_converter.md R139). -/
def overlayColor (std : Standard) (rng : Range) : BitVec 24 :=
  (rgbToYuv Config.overlayR Config.overlayG Config.overlayB std rng).packed

/-- CONVERT r, g, b, std, rng (41_rgb_to_yuv_converter.md R140): reads and writes no register. -/
def execConvert (r g b : Byte) (std : Standard) (rng : Range) (s : State) : Result :=
  .next (s.respond opConvert .ok false false .noReason ((rgbToYuv r g b std rng).packed.setWidth 64))

end Sys2Proof.Machine
end

