-- ==== Sys2Proof/Machine/Rasterizer.lean ====
section
/-! DEFINITION. The unit disc_rasterizer and the command NEGOTIATE (40_disc_rasterizer.md). Geometry is computed on
unbounded naturals with truncating division (00_scope.md R10, R12) and kept in registers of the spec's widths. -/

namespace Sys2Proof.Machine

/-- D = W / 32 (40_disc_rasterizer.md R102). -/
def diameter (w : Nat) : Nat := w / Config.diamDiv

/-- R = D / 2 (40_disc_rasterizer.md R102). -/
def radius (w : Nat) : Nat := diameter w / 2

/-- LOFF (40_disc_rasterizer.md R104). -/
def lumaOffset (w : Nat) : Nat := w * diameter w + diameter w

/-- UOFF (40_disc_rasterizer.md R105). -/
def uOffset (w h : Nat) : Nat := w * h + (w * radius w) / 2 + (w * h) / 4 + radius w

/-- VOFF (40_disc_rasterizer.md R106). -/
def vOffset (w h : Nat) : Nat := w * h + (w * radius w) / 2 + radius w

/-- MINLEN (40_disc_rasterizer.md R107). -/
def leastLength (w h : Nat) : Nat := (3 * w * h) / 2

/-- lmax, the last luma address of the D by D box (40_disc_rasterizer.md R108). -/
def lumaLast (w : Nat) : Nat := lumaOffset w + (diameter w - 1) * w + (diameter w - 1)

/-- cmax, the last chroma address of the box through UOFF (40_disc_rasterizer.md R108). -/
def chromaLast (w h : Nat) : Nat :=
  uOffset w h + ((diameter w - 1) / 2) * (w / 2) + (diameter w - 1) / 2

/-- FOOT_END(W, H) (40_disc_rasterizer.md R108). -/
def footEnd (w h : Nat) : Nat := 1 + max (lumaLast w) (chromaLast w h)

/-- The first failing check of NEGOTIATE, in the order of 40_disc_rasterizer.md R100 and R101. -/
def negotiateError (maskCap w h : Nat) (num den : Int) : Option Status :=
  if w < Config.minDim ∨ h < Config.minDim then some .errDim
  else if den ≤ 0 then some .errFraction
  else if num < den then some .errRate
  else if maskCap < diameter w * diameter w then some .errNomem
  else if leastLength w h < footEnd w h then some .errGeometry
  else none

/-- The cells (row, column) of a D by D grid in raster order (40_disc_rasterizer.md R103,
42_yuv_plane_compositor.md R156). -/
def rasterCells (d : Nat) : List (Nat × Nat) :=
  (List.range d).flatMap fun h => (List.range d).map fun w => (h, w)

/-- The disc test cx^2 + cy^2 < R^2, strict (40_disc_rasterizer.md R103). -/
def insideDisc (r : Nat) (cx cy : Int) : Bool := decide (cx * cx + cy * cy < (r : Int) * r)

/-- The n-th value of a coordinate that ranges over [-R, +R) (40_disc_rasterizer.md R103). -/
def centred (r n : Nat) : Int := Int.ofNat n - Int.ofNat r

/-- What the rasterizer leaves in cell (h, w): the disc test at cx = w - R, cy = h - R for a cell its iteration
over [-R, R) visits, and the cleared 0 for one it does not (40_disc_rasterizer.md R103; log entry 11). -/
def rasterValue (r : Nat) (cell : Nat × Nat) : Bool :=
  decide (cell.1 < 2 * r) && decide (cell.2 < 2 * r) &&
    insideDisc r (centred r cell.2) (centred r cell.1)

/-- The mask of diameter D: D * D cells, row-major (10_state.md R32, 40_disc_rasterizer.md R103). -/
def rasterize (d : Nat) : List Bool := (rasterCells d).map (rasterValue (d / 2))

/-- The iteration points (cx, cy) of 40_disc_rasterizer.md R103 in their order: cx varies fastest. -/
def rasterPoints (r : Nat) : List (Int × Int) :=
  (List.range (2 * r)).flatMap fun y => (List.range (2 * r)).map fun x => (centred r x, centred r y)

/-- The cell of point (cx, cy): (cy + R) * D + (cx + R) (40_disc_rasterizer.md R103). -/
def pointCell (d : Nat) (p : Int × Int) : Nat :=
  ((p.2 + Int.ofNat (d / 2)) * Int.ofNat d + (p.1 + Int.ofNat (d / 2))).toNat

/-- The literal procedure of 40_disc_rasterizer.md R100 and R103: clear every cell, then write the disc test of each
point to its cell. Obligation RasterizerLoopsLeaveTheMask says that it leaves `rasterize d`. -/
def rasterizeLoops (d : Nat) : List Bool :=
  (rasterPoints (d / 2)).foldl
    (fun mask p => mask.set (pointCell d p) (insideDisc (d / 2) p.1 p.2)) (List.replicate (d * d) false)

/-- Step 3 of NEGOTIATE: everything installed together (40_disc_rasterizer.md R100, R111). -/
def State.install (s : State) (w h : BitVec 16) (fps : Nat) (color : BitVec 24) : State :=
  { s with
    status := 1
    width := w
    height := h
    fps := BitVec.ofNat 32 fps
    diam := BitVec.ofNat 11 (diameter w.toNat)
    radius := BitVec.ofNat 10 (Machine.radius w.toNat)
    loff := BitVec.ofNat 33 (lumaOffset w.toNat)
    uoff := BitVec.ofNat 33 (uOffset w.toNat h.toNat)
    voff := BitVec.ofNat 33 (vOffset w.toNat h.toNat)
    minlen := BitVec.ofNat 33 (leastLength w.toNat h.toNat)
    mask := rasterize (diameter w.toNat)
    color := color }

/-- FPS = NUM / DEN, used only when NUM >= DEN >= 1 (40_disc_rasterizer.md R100, R101). -/
def frameRate (num den : BitVec 32) : Nat := (signed num / signed den).toNat

/-- NEGOTIATE w, h, num/den (40_disc_rasterizer.md R100): the operand checks in their order, each rejection releasing
the old configuration (R110); then the installation (R111) with the colour of the present CTRL (R112). -/
def execNegotiate (w h : BitVec 16) (num den : BitVec 32) (s : State) : Result :=
  match negotiateError s.cfg.maskCap w.toNat h.toNat (signed num) (signed den) with
  | some code => .next (s.release.reject opNegotiate code)
  | none =>
    match s.standard with
    | none => .fault .reservedStandard
    | some std =>
      .next ((s.install w h (frameRate num den) (overlayColor std s.range)).respond
        opNegotiate .ok true false .noReason 0)

end Sys2Proof.Machine
end

