-- ==== Sys2Proof/Machine/Compositor.lean ====
section
/-! DEFINITION. The unit yuv_plane_compositor and the command FRAME (42_yuv_plane_compositor.md). -/

namespace Sys2Proof.Machine

/-- COLOR.Y, bits 7:0 (10_state.md R29). -/
def State.colorY (s : State) : Byte := s.color.extractLsb' 0 8

/-- COLOR.U, bits 15:8 (10_state.md R29). -/
def State.colorU (s : State) : Byte := s.color.extractLsb' 8 8

/-- COLOR.V, bits 23:16 (10_state.md R29). -/
def State.colorV (s : State) : Byte := s.color.extractLsb' 16 8

/-- The luma address of cell (h, w) (42_yuv_plane_compositor.md R157). -/
def State.lumaAddr (s : State) (h w : Nat) : Nat := s.loff.toNat + h * s.width.toNat + w

/-- The address through UOFF of cell (h, w) (42_yuv_plane_compositor.md R157). -/
def State.uAddr (s : State) (h w : Nat) : Nat := s.uoff.toNat + (h / 2) * (s.width.toNat / 2) + w / 2

/-- The address through VOFF of cell (h, w) (42_yuv_plane_compositor.md R157). -/
def State.vAddr (s : State) (h w : Nat) : Nat := s.voff.toNat + (h / 2) * (s.width.toNat / 2) + w / 2

/-- The three writes of an inside cell, in their order (42_yuv_plane_compositor.md R156, R157). -/
def State.cellWrites (s : State) (cell : Nat × Nat) : List Host.Cell :=
  [(s.lumaAddr cell.1 cell.2, s.colorY), (s.uAddr cell.1 cell.2, s.colorU),
   (s.vAddr cell.1 cell.2, s.colorV)]

/-- The writes for the inside cells among `cells`, in their order; a cell without value cannot be read
(42_yuv_plane_compositor.md R150, R156; 10_state.md R32). -/
def overlayFrom (s : State) : List (Nat × Nat) → Except Fault (List Host.Cell)
  | [] => .ok []
  | (h, w) :: rest =>
    match s.maskCell (h * s.diam.toNat + w) with
    | none => .error (.maskNoValue (h * s.diam.toNat + w))
    | some inside =>
      match overlayFrom s rest with
      | .error f => .error f
      | .ok writes => .ok (if inside then s.cellWrites (h, w) ++ writes else writes)

/-- All writes of a drawing FRAME, in order (42_yuv_plane_compositor.md R150, R156). -/
def State.overlayWrites (s : State) : Except Fault (List Host.Cell) :=
  overlayFrom s (rasterCells s.diam.toNat)

/-- The frame space after a drawing FRAME on a buffer of `len` bytes (42_yuv_plane_compositor.md R150). -/
def State.composed (s : State) (len : Nat) : Except Fault Memory :=
  match s.overlayWrites with
  | .error f => .error f
  | .ok writes => s.frame.memWrites len writes

/-- FRAME len, wr (42_yuv_plane_compositor.md R150): COUNTER first (R151), then the reasons for not drawing in their
order (R155), else the overlay. Every path answers OK with FWD = 1 and DATA = COUNTER (R161). -/
def execFrame (len : BitVec 64) (wr : Bool) (s : State) : Result :=
  match s.countFrame.notDrawn len wr with
  | some reason =>
    .next (s.countFrame.respond opFrame .ok true false reason (s.countFrame.counter.setWidth 64))
  | none =>
    match s.countFrame.composed len.toNat with
    | .error f => .fault f
    | .ok frame =>
      .next ((s.countFrame.setFrame frame).respond opFrame .ok true true .noReason
        (s.countFrame.counter.setWidth 64))

end Sys2Proof.Machine
end

