-- ==== Sys2Proof/Machine/Control.lean ====
section
/-! DEFINITION. The commands EOS, WRCTRL, RDREG and RDMASK (43_control_readback.md). -/

namespace Sys2Proof.Machine

/-- EOS (43_control_readback.md R182): releases in every state, forwards, keeps COUNTER and CTRL. -/
def execEos (s : State) : Result :=
  .next (s.release.respond opEos .ok true false .noReason 0)

/-- WRCTRL value (43_control_readback.md R184): CTRL as a whole; a value with STD = 3 is an illegal command and
leaves CTRL unchanged (10_state.md R24; no decoded command holds one, log entry 15). -/
def execWrctrl (value : BitVec 5) (s : State) : Result :=
  if LegalCtrl value then
    .next ((s.writeCtrl value).respond opWrctrl .ok false false .noReason 0)
  else .next (s.reject opWrctrl .errIllegal)

/-- RDREG idx (43_control_readback.md R186): ERR_RANGE above 12. -/
def execRdreg (idx : Byte) (s : State) : Result :=
  match s.register idx with
  | none => .next (s.reject opRdreg .errRange)
  | some value => .next (s.respond opRdreg .ok false false .noReason value)

/-- RDMASK cell (43_control_readback.md R188): ERR_RANGE when not configured or outside the current mask. -/
def execRdmask (cell : BitVec 32) (s : State) : Result :=
  if s.valid = false ∨ s.diam.toNat * s.diam.toNat ≤ cell.toNat then
    .next (s.reject opRdmask .errRange)
  else
    match s.maskCell cell.toNat with
    | none => .fault (.maskNoValue cell.toNat)
    | some inside => .next (s.respond opRdmask .ok false false .noReason (cellData inside))

end Sys2Proof.Machine
end

