-- ==== Sys2Proof/Machine/Dispatch.lean ====
section
/-! DEFINITION. The dispatch: one arm per command of 30_encoding.md R74. -/

namespace Sys2Proof.Machine

def exec (i : Instr) (s : State) : Host.Outcome State Fault Refusal :=
  match i with
  | .negotiate w h num den => Sys2Proof.Machine.execNegotiate w h num den s
  | .frame len wr => Sys2Proof.Machine.execFrame len wr s
  | .eos => Sys2Proof.Machine.execEos s
  | .convert r g b std rng => Sys2Proof.Machine.execConvert r g b std rng s
  | .wrctrl value => Sys2Proof.Machine.execWrctrl value s
  | .rdreg idx => Sys2Proof.Machine.execRdreg idx s
  | .rdmask cell => Sys2Proof.Machine.execRdmask cell s

end Sys2Proof.Machine
end

