-- ==== Sys2Proof/Machine/Step.lean ====
section
/-! DEFINITION. One step: take the host's next move and, when it completes a descriptor, do what 30_encoding.md R90
says: legality first, then the command. -/

namespace Sys2Proof.Machine

/-- One step of the machine (30_encoding.md R70, R90; 70_reset_and_hazards.md R220, R225). -/
def step (s : State) : Host.Outcome State Fault Refusal :=
  match s.takeMove with
  | .nothing => .next s
  | .resetTo t => .next t
  | .waiting t => .next t
  | .overrun => .refused .commandBeforeResponse
  | .command d t =>
    match decode d with
    | .error _ => .next (t.answerIllegal d)
    | .ok i => exec i t

/-- `s` with the command whose bits are `w` as the host's next move, so that the next step runs it: the command port
is empty and the buffer lent is the frame space `s` holds (log entry 1). -/
def State.withFetchWord (s : State) (nbits w : Nat) : State :=
  { s with port := [], host := .send (tableBytes nbits w) s.frame :: s.host }

end Sys2Proof.Machine
end

