-- ==== Sys2Proof/Machine/Assembler.lean ====
section
/-! DEFINITION. The assembler of 30_encoding.md R88 and R89: the lines a program is written in, the pseudo-commands, the
words each line stands for, and the reader of the textual form. -/

namespace Sys2Proof.Machine

/-- A line of the textual form: the seven commands (30_encoding.md R88), RAW, and the three pseudo-commands (R89). -/
inductive AsmLine where
  | negotiate (w h : Nat) (num den : Int)
  | frame (len wr : Nat)
  | eos
  | convert (r g b : Nat) (std : Standard) (rng : Range)
  | wrctrl (silent showBit : Nat) (std : Standard) (rng : Range)
  | rdreg (idx : Nat)
  | rdmask (cell : Nat)
  | raw (w0 w1 w2 w3 : Nat)
  | negotiateFps (w h : Nat) (fps : Int)
  | convertRed (std : Standard) (rng : Range)
  | rdmaskAt (d h w : Nat)
  deriving DecidableEq, Repr

/-- Whether an integer has a 32-bit two's complement form (30_encoding.md R75). -/
def fitsSigned32 (n : Int) : Bool := decide (-(2 ^ 31) ≤ n) && decide (n < 2 ^ 31)

/-- The line a pseudo-command expands to; any other line is itself (30_encoding.md R89). -/
def AsmLine.expand : AsmLine → AsmLine
  | .negotiateFps w h fps => .negotiate w h fps 1
  | .convertRed std rng => .convert 255 0 0 std rng
  | .rdmaskAt d h w => .rdmask (h * d + w)
  | line => line

/-- Whether every operand of a line that is no pseudo-command fits its field (30_encoding.md R75 to R84, R88). -/
def AsmLine.inRange : AsmLine → Bool
  | .negotiate w h num den =>
    decide (w < 2 ^ 16) && decide (h < 2 ^ 16) && fitsSigned32 num && fitsSigned32 den
  | .frame len wr => decide (len < 2 ^ 64) && decide (wr < 2)
  | .eos => true
  | .convert r g b _ _ => decide (r < 256) && decide (g < 256) && decide (b < 256)
  | .wrctrl silent showBit _ _ => decide (silent < 2) && decide (showBit < 2)
  | .rdreg idx => decide (idx < 256)
  | .rdmask cell => decide (cell < 2 ^ 32)
  | .raw w0 w1 w2 w3 =>
    decide (w0 < 2 ^ 32) && decide (w1 < 2 ^ 32) && decide (w2 < 2 ^ 32) && decide (w3 < 2 ^ 32)
  | .negotiateFps _ _ _ => false
  | .convertRed _ _ => false
  | .rdmaskAt _ _ _ => false

/-- The words of a line that is no pseudo-command, by the shifts of 30_encoding.md R88. -/
def AsmLine.words : AsmLine → Descriptor
  | .negotiate w h num den =>
    ⟨opNegotiate.setWidth 32, BitVec.ofNat 32 w ||| BitVec.ofNat 32 h <<< 16, BitVec.ofInt 32 num,
      BitVec.ofInt 32 den⟩
  | .frame len wr =>
    ⟨opFrame.setWidth 32 ||| BitVec.ofNat 32 wr <<< 8, BitVec.ofNat 32 len, BitVec.ofNat 32 (len / 2 ^ 32), 0⟩
  | .eos => ⟨opEos.setWidth 32, 0, 0, 0⟩
  | .convert r g b std rng =>
    ⟨opConvert.setWidth 32 ||| std.bits.setWidth 32 <<< 8 ||| rng.bit.setWidth 32 <<< 10,
      BitVec.ofNat 32 r ||| BitVec.ofNat 32 g <<< 8 ||| BitVec.ofNat 32 b <<< 16, 0, 0⟩
  | .wrctrl silent showBit std rng =>
    ⟨opWrctrl.setWidth 32,
      BitVec.ofNat 32 silent ||| BitVec.ofNat 32 showBit <<< 1 ||| std.bits.setWidth 32 <<< 2 |||
        rng.bit.setWidth 32 <<< 4, 0, 0⟩
  | .rdreg idx => ⟨opRdreg.setWidth 32 ||| BitVec.ofNat 32 idx <<< 8, 0, 0, 0⟩
  | .rdmask cell => ⟨opRdmask.setWidth 32, BitVec.ofNat 32 cell, 0, 0⟩
  | .raw w0 w1 w2 w3 => ⟨BitVec.ofNat 32 w0, BitVec.ofNat 32 w1, BitVec.ofNat 32 w2, BitVec.ofNat 32 w3⟩
  | .negotiateFps _ _ _ => ⟨0, 0, 0, 0⟩
  | .convertRed _ _ => ⟨0, 0, 0, 0⟩
  | .rdmaskAt _ _ _ => ⟨0, 0, 0, 0⟩

/-- The descriptor of a line, if its operands fit their fields (30_encoding.md R88, R89). -/
def AsmLine.assemble (line : AsmLine) : Option Descriptor :=
  if line.expand.inRange then some line.expand.words else none

/-! ### The textual form (30_encoding.md R88; the details it leaves open: log entry 14) -/

/-- The text before a comment. -/
def dropComment (cs : List Char) : List Char := cs.takeWhile (· != ';')

/-- Whether a character only separates. -/
def isBlank (c : Char) : Bool := c == ' ' || c == '\t'

/-- Without leading and trailing blanks. -/
def trimBlanks (cs : List Char) : List Char :=
  ((cs.dropWhile isBlank).reverse.dropWhile isBlank).reverse

/-- The pieces between separators. -/
def splitAt (sep : Char) : List Char → List (List Char)
  | [] => [[]]
  | c :: cs =>
    if c = sep then [] :: splitAt sep cs
    else match splitAt sep cs with
      | [] => [[c]]
      | piece :: rest => (c :: piece) :: rest

/-- The value of a digit in a base of at most sixteen. -/
def digitValue (base : Nat) (c : Char) : Option Nat :=
  let n := c.toNat
  let v := if 48 ≤ n ∧ n ≤ 57 then some (n - 48)
    else if 97 ≤ n ∧ n ≤ 102 then some (n - 87)
    else if 65 ≤ n ∧ n ≤ 70 then some (n - 55)
    else none
  v.filter (· < base)

/-- The value of a run of digits, most significant first, after the digits already read. -/
def readDigits (base : Nat) : Nat → List Char → Option Nat
  | value, [] => some value
  | value, c :: cs =>
    match digitValue base c with
    | none => none
    | some v => readDigits base (value * base + v) cs

/-- A number: decimal, or hexadecimal with `0x`. -/
def readNat : List Char → Option Nat
  | [] => none
  | '0' :: 'x' :: c :: cs => readDigits 16 0 (c :: cs)
  | cs => readDigits 10 0 cs

/-- A number with an optional minus sign (the NUM and DEN of 95_test_vectors.md section 2.2). -/
def readInt : List Char → Option Int
  | '-' :: cs => (readNat cs).map fun n => -Int.ofNat n
  | cs => (readNat cs).map Int.ofNat

/-- A standard's keyword. -/
def readStandard (cs : List Char) : Option Standard :=
  if cs = ['B', 'T', '6', '0', '1'] then some .bt601
  else if cs = ['B', 'T', '7', '0', '9'] then some .bt709
  else if cs = ['F', 'C', 'C'] then some .fcc
  else none

/-- A range's keyword. -/
def readRange (cs : List Char) : Option Range :=
  if cs = ['F', 'U', 'L', 'L'] then some .full
  else if cs = ['S', 'T', 'U', 'D', 'I', 'O'] then some .studio
  else none

/-- The register names, in the order of their indices (10_state.md R23). -/
def registerNames : List (List Char) :=
  [['C', 'T', 'R', 'L'], ['S', 'T', 'A', 'T', 'U', 'S'], ['W', 'I', 'D', 'T', 'H'],
   ['H', 'E', 'I', 'G', 'H', 'T'], ['F', 'P', 'S'], ['D', 'I', 'A', 'M'], ['R', 'A', 'D', 'I', 'U', 'S'],
   ['L', 'O', 'F', 'F'], ['U', 'O', 'F', 'F'], ['V', 'O', 'F', 'F'], ['C', 'O', 'L', 'O', 'R'],
   ['C', 'O', 'U', 'N', 'T', 'E', 'R'], ['M', 'I', 'N', 'L', 'E', 'N']]

/-- A register: its name or its index. -/
def readRegister (cs : List Char) : Option Nat :=
  match registerNames.findIdx? (· == cs) with
  | some idx => some idx
  | none => readNat cs

/-- The third operand of NEGOTIATE: `num/den`, or `fps` for the pseudo-command. -/
def readRate (w h : Nat) (cs : List Char) : Option AsmLine :=
  match (splitAt '/' cs).map trimBlanks with
  | [num, den] => do return .negotiate w h (← readInt num) (← readInt den)
  | [fps] => do return .negotiateFps w h (← readInt fps)
  | _ => none

/-- A command from its mnemonic and its operands. -/
def readCommand (mnemonic : List Char) (operands : List (List Char)) : Option AsmLine :=
  if mnemonic = ['N', 'E', 'G', 'O', 'T', 'I', 'A', 'T', 'E'] then
    match operands with
    | [w, h, rate] => do readRate (← readNat w) (← readNat h) rate
    | _ => none
  else if mnemonic = ['F', 'R', 'A', 'M', 'E'] then
    match operands with
    | [len, wr] => do return .frame (← readNat len) (← readNat wr)
    | _ => none
  else if mnemonic = ['E', 'O', 'S'] then
    match operands with
    | [[]] => some .eos
    | _ => none
  else if mnemonic = ['C', 'O', 'N', 'V', 'E', 'R', 'T'] then
    match operands with
    | [r, g, b, std, rng] => do
      return .convert (← readNat r) (← readNat g) (← readNat b) (← readStandard std) (← readRange rng)
    | _ => none
  else if mnemonic = ['W', 'R', 'C', 'T', 'R', 'L'] then
    match operands with
    | [silent, showBit, std, rng] => do
      return .wrctrl (← readNat silent) (← readNat showBit) (← readStandard std) (← readRange rng)
    | _ => none
  else if mnemonic = ['R', 'D', 'R', 'E', 'G'] then
    match operands with
    | [reg] => (readRegister reg).map .rdreg
    | _ => none
  else if mnemonic = ['R', 'D', 'M', 'A', 'S', 'K'] then
    match operands with
    | [cell] => (readNat cell).map .rdmask
    | _ => none
  else if mnemonic = ['R', 'A', 'W'] then
    match operands with
    | [w0, w1, w2, w3] => do return .raw (← readNat w0) (← readNat w1) (← readNat w2) (← readNat w3)
    | _ => none
  else if mnemonic = ['C', 'O', 'N', 'V', 'E', 'R', 'T', '_', 'R', 'E', 'D'] then
    match operands with
    | [std, rng] => do return .convertRed (← readStandard std) (← readRange rng)
    | _ => none
  else if mnemonic = ['R', 'D', 'M', 'A', 'S', 'K', '_', 'A', 'T'] then
    match operands with
    | [d, h, w] => do return .rdmaskAt (← readNat d) (← readNat h) (← readNat w)
    | _ => none
  else none

/-- One line of text: a mnemonic, blanks, operands between commas, an optional comment (30_encoding.md R88). -/
def readLine (cs : List Char) : Option AsmLine :=
  let text := trimBlanks (dropComment cs)
  readCommand (text.takeWhile fun c => !isBlank c)
    ((splitAt ',' (text.dropWhile fun c => !isBlank c)).map trimBlanks)

/-- A line of text as the descriptor it stands for. -/
def assembleText (text : String) : Option Descriptor :=
  match readLine text.toList with
  | none => none
  | some line => line.assemble

end Sys2Proof.Machine
end

