-- ==== Sys2Proof/Safety.lean ====
section
/-! DEFINITION. What counts as a safe state and what a run gives, in the terms the claims use: the released and the
configured state (10_state.md R33, R34), the invariant of every step, the result of a run (70_reset_and_hazards.md
R225). -/

namespace Sys2Proof.Machine

/-- Every register of 10_state.md R33 reads 0 and MASK holds no value. -/
def State.Released (s : State) : Prop :=
  s.width = 0 ∧ s.height = 0 ∧ s.fps = 0 ∧ s.diam = 0 ∧ s.radius = 0 ∧ s.loff = 0 ∧ s.uoff = 0 ∧
    s.voff = 0 ∧ s.color = 0 ∧ s.minlen = 0 ∧ s.mask = []

/-- MASK holds the disc of diameter `d` and radius `r` in its closed form (10_state.md R34,
40_disc_rasterizer.md R113). -/
def HoldsDisc (mask : List Bool) (d r : Nat) : Prop :=
  mask.length = d * d ∧
    ∀ h, h < d → ∀ w, w < d → mask[h * d + w]? =
      some (decide (((w : Int) - r) ^ 2 + ((h : Int) - r) ^ 2 < (r : Int) ^ 2))

/-- The configured state, line by line as 10_state.md R34 lists it, on the registers' values. -/
def State.Configured (s : State) : Prop :=
  let w := s.width.toNat
  let h := s.height.toNat
  let d := s.diam.toNat
  let r := s.radius.toNat
  64 ≤ w ∧ 64 ≤ h ∧ 1 ≤ s.fps.toNat ∧ s.fps.toNat ≤ 2 ^ 31 - 1 ∧
    d = w / 32 ∧ r = d / 2 ∧ d * d ≤ s.cfg.maskCap ∧
    s.loff.toNat = w * d + d ∧
    s.uoff.toNat = w * h + (w * r) / 2 + (w * h) / 4 + r ∧
    s.voff.toNat = w * h + (w * r) / 2 + r ∧
    s.minlen.toNat = (3 * w * h) / 2 ∧
    footEnd w h ≤ s.minlen.toNat ∧
    HoldsDisc s.mask d r ∧
    ∃ std rng, s.color = (rgbToYuv 255 0 0 std rng).packed

/-- Frame space after a list of writes, in order (20_memory.md R59). -/
def Memory.writeAll (m : Memory) (writes : List Host.Cell) : Memory :=
  writes.foldl (fun m c => m.write c.1 c.2) m

/-- The cells of the D by D grid inside the disc, in raster order, by the closed form of 40_disc_rasterizer.md R113. -/
def discCells (d r : Nat) : List (Nat × Nat) :=
  (rasterCells d).filter fun c => decide (((c.2 : Int) - r) ^ 2 + ((c.1 : Int) - r) ^ 2 < (r : Int) ^ 2)

/-- The writes of a drawing FRAME: for each inside cell in raster order luma, then through UOFF, then through VOFF, at
the addresses of 42_yuv_plane_compositor.md R157 (R156, R160). -/
def State.discWrites (s : State) : List Host.Cell :=
  (discCells s.diam.toNat s.radius.toNat).flatMap s.cellWrites

/-- The conditions under which NEGOTIATE accepts a format: no check of 40_disc_rasterizer.md R100 fails. -/
structure AcceptedFormat (maskCap w h : Nat) (num den : Int) : Prop where
  width_ok : 64 ≤ w
  height_ok : 64 ≤ h
  den_pos : 1 ≤ den
  rate_ok : den ≤ num
  mask_fits : (w / 32) * (w / 32) ≤ maskCap
  foot_fits : footEnd w h ≤ (3 * w * h) / 2

/-- The buffer of a host move is in the canonical form of `Memory`. -/
def HostMove.wf : HostMove → Bool
  | .send _ buffer => buffer.wf
  | .reset => true

/-- The invariant of every step: CTRL.STD is legal (10_state.md R24), at most fifteen bytes wait on the command port
(30_encoding.md R70), every frame space is in canonical form, and the block is released or configured as VALID says
(10_state.md R33, R34). -/
structure State.Inv (s : State) : Prop where
  ctrl_legal : LegalCtrl s.ctrl
  port_short : s.port.length < 16
  frame_wf : s.frame.wf = true
  host_wf : ∀ move ∈ s.host, move.wf = true
  released : s.valid = false → s.Released
  configured : s.valid = true → s.Configured

/-- Everything the block keeps between commands but its response: two states that agree here differ at most in the
response port. -/
def State.SameButResponse (s t : State) : Prop := { t with rsp := s.rsp } = s

/-- What the block answers at a step that takes a move: the response with the frame space at that moment
(70_reset_and_hazards.md R225). -/
def answerOf (before after : State) : List (Response × Memory) :=
  match before.host, after.rsp with
  | _ :: _, some r => [(r, after.frame)]
  | _, _ => []

/-- The result of a run of at most `k` steps: the answers in order and the last state reached
(70_reset_and_hazards.md R225). -/
def runResult : Nat → State → List (Response × Memory) × State
  | 0, s => ([], s)
  | k + 1, s =>
    match step s with
    | .next t => (answerOf s t ++ (runResult k t).1, (runResult k t).2)
    | .fault _ => ([], s)
    | .refused _ => ([], s)

end Sys2Proof.Machine
end

