-- ==== Sys2Proof/Certificates/Slice0/Obligations.lean ====
section
/-! DEFINITION. The statements for the provers. Each docstring names the rule of spec/ it formalises. -/

open Sys2Proof Sys2Proof.Machine

/-! ## Reset, the host's moves, the invariant -/

/-- 10_state.md R36: what reset leaves, register by register and field by field; every mask cell without value, no
command in flight (and, by 70_reset_and_hazards.md R220, no response pending). -/
def Obligations.ResetLeavesTheSpecifiedState : Prop :=
  State.reset.ctrl = 0x02 ∧ State.reset.silent = false ∧ State.reset.showOverlay = true ∧
  State.reset.standard = some .bt601 ∧ State.reset.range = .full ∧ State.reset.valid = false ∧
  State.reset.width = 0 ∧ State.reset.height = 0 ∧ State.reset.fps = 0 ∧ State.reset.diam = 0 ∧
  State.reset.radius = 0 ∧ State.reset.loff = 0 ∧ State.reset.uoff = 0 ∧ State.reset.voff = 0 ∧
  State.reset.color = 0 ∧ State.reset.counter = 0 ∧ State.reset.minlen = 0 ∧
  (∀ cell, State.reset.maskCell cell = none) ∧ State.reset.port = [] ∧ State.reset.rsp = none

/-- 70_reset_and_hazards.md R220: reset applied between commands gives the reset state. That the parameters, the
host's script and the host's buffer stay is the model's choice (log entry 13). -/
def Obligations.ResetInputGivesTheResetState : Prop :=
  ∀ (s : State) (rest : List HostMove), s.host = .reset :: rest →
    step s = .next { State.reset with cfg := s.cfg, host := rest, frame := s.frame }

/-- The state after reset meets the invariant, whatever MASK_CAP is (10_state.md R33, R36). -/
def Obligations.ResetMeetsTheInvariant : Prop :=
  ∀ cap : Nat, State.Inv { State.reset with cfg := ⟨cap⟩ }

/-- 10_state.md R24, R33, R34: from every state that meets the invariant, reachable or not, a step gives one that
meets it. -/
def Obligations.StepKeepsTheInvariant : Prop :=
  ∀ s t : State, s.Inv → step s = .next t → t.Inv

/-- 60_exceptions.md R206 and 20_memory.md R62: under the invariant every command terminates with a next state, no
fault and no refusal. A WRCTRL term with STD = 3, which no descriptor decodes to, answers by the model's own choice (log
entry 15). -/
def Obligations.CommandsAnswerUnderInv : Prop :=
  ∀ (i : Instr) (s : State), s.Inv → ∃ t, exec i s = .next t

/-- Under the invariant a step answers, but for one case: the host has sent bytes past the end of a command before
its response, which 93_implementation_defined.md U4 refuses. -/
def Obligations.StepAnswersUnlessTheHostOverruns : Prop :=
  ∀ s : State, s.Inv →
    (∃ t, step s = .next t) ∨
    (∃ bytes buffer rest, s.host = .send bytes buffer :: rest ∧ 16 < (s.port ++ bytes).length ∧
      step s = .refused .commandBeforeResponse)

/-- 30_encoding.md R70, R90: when the bytes on the command port complete a descriptor that decodes to `i`, the step is
`exec i`, with the port emptied, no response given yet, the buffer lent, and the move taken off the host's script (the
model's form of the host: log entries 1, 2 and 12). -/
def Obligations.StepRunsTheDecodedCommand : Prop :=
  ∀ (s : State) (bytes : List Byte) (buffer : Memory) (rest : List HostMove) (d : Descriptor) (i : Instr),
    s.host = .send bytes buffer :: rest → s.port ++ bytes = d.bytes → decode d = .ok i →
    step s = exec i { s with port := [], rsp := none, frame := buffer, host := rest }

/-- 60_exceptions.md R201: an illegal descriptor (by the opcode table and the reserved STD) changes nothing; the
response is ERR_ILLEGAL with the opcode byte as received. That the step takes the move off the host's script, empties
the command port and holds the lent buffer is the model's form of the host (log entries 1 and 2). -/
def Obligations.IllegalDescriptorChangesNothing : Prop :=
  ∀ (s : State) (bytes : List Byte) (buffer : Memory) (rest : List HostMove) (d : Descriptor),
    s.host = .send bytes buffer :: rest → s.port ++ bytes = d.bytes → d.legal = false →
    step s = .next { s with
      port := [], frame := buffer, host := rest,
      rsp := some ⟨.errIllegal, false, false, .noReason, d.w0.extractLsb' 0 8, 0⟩ }

/-- 30_encoding.md R70: fewer than 128 bits are not a command; the block waits for the rest, no register changed.
That the response port is empty meanwhile is the model's choice (log entry 12). -/
def Obligations.PartialDescriptorWaits : Prop :=
  ∀ (s : State) (bytes : List Byte) (buffer : Memory) (rest : List HostMove),
    s.host = .send bytes buffer :: rest → (s.port ++ bytes).length < 16 →
    step s = .next { s with port := s.port ++ bytes, rsp := none, host := rest }

/-- 60_exceptions.md R212: with no move of the host the block is idle and holds its state (that a step with an empty
script is this idleness is the model's choice, log entries 1 and 12). -/
def Obligations.IdleBlockHoldsItsState : Prop :=
  ∀ s : State, s.host = [] → step s = .next s

/-! ## Encoding -/

/-- 30_encoding.md R75 to R84: every well-formed instruction, with every operand at every value, decodes from its
encoding, as words and as bytes. -/
def Obligations.DecodeUndoesEncode : Prop :=
  ∀ i : Instr, i.wellFormed = true →
    decode (encode i) = .ok i ∧ decodeBytes (encodeBytes i) = .ok (i, [])

/-- 30_encoding.md R73, R87: a descriptor the decoder accepts is the encoding of the instruction it gives, bit for
bit, so no two descriptors mean one instruction. -/
def Obligations.EncodeUndoesDecode : Prop :=
  ∀ (d : Descriptor) (i : Instr), decode d = .ok i → encode i = d ∧ i.wellFormed = true

/-- 30_encoding.md R73, R74, R86: the decoder accepts exactly the descriptors that fit a row of the opcode table and
do not hold the reserved STD. -/
def Obligations.DecoderAcceptsExactlyTheLegalDescriptors : Prop :=
  ∀ d : Descriptor, (∃ i, decode d = .ok i) ↔ d.legal = true

/-- 30_encoding.md R74: no descriptor fits two rows of the opcode table. -/
def Obligations.OpcodeRowsAreDisjoint : Prop :=
  ∀ d : Descriptor, opcodeTable.Pairwise fun a b => ¬ (a.fits d = true ∧ b.fits d = true)

/-- Words written out from 30_encoding.md R75 to R84 (those of 95_test_vectors.md) decode to what they stand for. -/
def Obligations.SpecWordsDecode : Prop :=
  decode ⟨0x00000001, 0x01E00280, 0x0000001E, 0x00000001⟩ = .ok (.negotiate 640 480 30 1) ∧
  decode ⟨0x00000102, 0x00070800, 0x00000000, 0x00000000⟩ = .ok (.frame 460800 true) ∧
  decode ⟨0x00000003, 0x00000000, 0x00000000, 0x00000000⟩ = .ok .eos ∧
  decode ⟨0x00000604, 0x0063C80C, 0x00000000, 0x00000000⟩ = .ok (.convert 12 200 99 .fcc .studio) ∧
  decode ⟨0x00000005, 0x00000016, 0x00000000, 0x00000000⟩ = .ok (.wrctrl 0x16) ∧
  decode ⟨0x00000806, 0x00000000, 0x00000000, 0x00000000⟩ = .ok (.rdreg 8) ∧
  decode ⟨0x00000007, 0x003FF000, 0x00000000, 0x00000000⟩ = .ok (.rdmask 4190208)

/-! ## NEGOTIATE -/

/-- 40_disc_rasterizer.md R102, R104 to R107: the geometry an accepted NEGOTIATE installs, on the registers' values. -/
def Obligations.NegotiateInstallsTheGeometry : Prop :=
  ∀ (s : State) (w h : BitVec 16) (num den : BitVec 32),
    AcceptedFormat s.cfg.maskCap w.toNat h.toNat num.toInt den.toInt → LegalCtrl s.ctrl →
    ∃ t, exec (.negotiate w h num den) s = .next t ∧ t.width = w ∧ t.height = h ∧
      t.diam.toNat = w.toNat / 32 ∧ t.radius.toNat = t.diam.toNat / 2 ∧
      2 ≤ t.diam.toNat ∧ t.diam.toNat ≤ 2047 ∧ 1 ≤ t.radius.toNat ∧ t.radius.toNat ≤ 1023 ∧
      t.loff.toNat = w.toNat * t.diam.toNat + t.diam.toNat ∧
      t.uoff.toNat = w.toNat * h.toNat + (w.toNat * t.radius.toNat) / 2 + (w.toNat * h.toNat) / 4 +
        t.radius.toNat ∧
      t.voff.toNat = w.toNat * h.toNat + (w.toNat * t.radius.toNat) / 2 + t.radius.toNat ∧
      t.uoff.toNat = t.voff.toNat + (w.toNat * h.toNat) / 4 ∧
      t.minlen.toNat = (3 * w.toNat * h.toNat) / 2 ∧
      ((w.toNat * h.toNat) % 2 = 0 → 2 * t.minlen.toNat = 3 * w.toNat * h.toNat) ∧
      (w.toNat % 2 = 0 →
        t.voff.toNat = w.toNat * h.toNat + t.radius.toNat * (w.toNat / 2) + t.radius.toNat) ∧
      (w.toNat % 2 = 0 → h.toNat % 2 = 0 →
        t.uoff.toNat = w.toNat * h.toNat + (w.toNat / 2) * (h.toNat / 2) +
          t.radius.toNat * (w.toNat / 2) + t.radius.toNat)

/-- 40_disc_rasterizer.md R100, R101, R112: an accepted NEGOTIATE sets VALID, the truncated rate, and the colour that
the exact conversion of (255, 0, 0) gives under the present CTRL, and answers OK with FWD = 1. -/
def Obligations.NegotiateInstallsRateAndColour : Prop :=
  ∀ (s : State) (w h : BitVec 16) (num den : BitVec 32) (std : Standard),
    AcceptedFormat s.cfg.maskCap w.toNat h.toNat num.toInt den.toInt → s.standard = some std →
    ∃ t, exec (.negotiate w h num den) s = .next t ∧ t.status = 1 ∧
      (t.fps.toNat : Int) = num.toInt / den.toInt ∧ 1 ≤ t.fps.toNat ∧ t.fps.toNat ≤ 2 ^ 31 - 1 ∧
      t.color = (rgbToYuvExact 255 0 0 std s.range).packed ∧
      t.rsp = some ⟨.ok, true, false, .noReason, 0x01, 0⟩

/-- 40_disc_rasterizer.md R100, R101, R108 to R110: the first check that fails names the status, and every rejection
releases the configuration and leaves everything else. -/
def Obligations.NegotiateRejectsInOrder : Prop :=
  ∀ (s : State) (w h : BitVec 16) (num den : BitVec 32),
    let rejected : Status → Result := fun code => .next { s with
      status := 0, width := 0, height := 0, fps := 0, diam := 0, radius := 0, loff := 0, uoff := 0,
      voff := 0, color := 0, minlen := 0, mask := [],
      rsp := some ⟨code, false, false, .noReason, 0x01, 0⟩ }
    let d := w.toNat / 32
    (w.toNat < 64 ∨ h.toNat < 64 → exec (.negotiate w h num den) s = rejected .errDim) ∧
    (64 ≤ w.toNat → 64 ≤ h.toNat →
      (den.toInt ≤ 0 → exec (.negotiate w h num den) s = rejected .errFraction) ∧
      (1 ≤ den.toInt →
        (num.toInt < den.toInt → exec (.negotiate w h num den) s = rejected .errRate) ∧
        (den.toInt ≤ num.toInt →
          (s.cfg.maskCap < d * d → exec (.negotiate w h num den) s = rejected .errNomem) ∧
          (d * d ≤ s.cfg.maskCap → (3 * w.toNat * h.toNat) / 2 < footEnd w.toNat h.toNat →
            exec (.negotiate w h num den) s = rejected .errGeometry))))

/-- 40_disc_rasterizer.md R115, first two sentences: the footprint check passes exactly when H >= 2 * D - 1, and so for
every format with W <= 1055. -/
def Obligations.FootprintPassesExactlyForTallFormats : Prop :=
  ∀ w h : Nat, 64 ≤ w → w ≤ 65535 → 64 ≤ h → h ≤ 65535 →
    (footEnd w h ≤ (3 * w * h) / 2 ↔ 2 * (w / 32) - 1 ≤ h) ∧
    (w ≤ 1055 → footEnd w h ≤ (3 * w * h) / 2)

/-- 00_scope.md R10: no value the geometry computes overflows its register. -/
def Obligations.GeometryFitsItsRegisters : Prop :=
  ∀ w h : Nat, 64 ≤ w → w ≤ 65535 → 64 ≤ h → h ≤ 65535 →
    diameter w < 2 ^ 11 ∧ radius w < 2 ^ 10 ∧ lumaOffset w < 2 ^ 33 ∧ uOffset w h < 2 ^ 33 ∧
    vOffset w h < 2 ^ 33 ∧ leastLength w h < 2 ^ 33 ∧ footEnd w h < 2 ^ 33

/-- 40_disc_rasterizer.md R113: after an accepted NEGOTIATE cell h * D + w is set exactly when
(w - R)^2 + (h - R)^2 < R^2. -/
def Obligations.NegotiateMaskClosedForm : Prop :=
  ∀ (s : State) (w h : BitVec 16) (num den : BitVec 32),
    AcceptedFormat s.cfg.maskCap w.toNat h.toNat num.toInt den.toInt → LegalCtrl s.ctrl →
    ∃ t, exec (.negotiate w h num den) s = .next t ∧
      HoldsDisc t.mask (w.toNat / 32) (w.toNat / 32 / 2)

/-- 40_disc_rasterizer.md R103: the mask of an accepted NEGOTIATE is what the document's loops leave: every cell
cleared, then for cy and inside that cx over [-R, R) the cell (cy + R) * D + (cx + R) written. -/
def Obligations.RasterizerLoopsLeaveTheMask : Prop :=
  ∀ (s : State) (w h : BitVec 16) (num den : BitVec 32),
    AcceptedFormat s.cfg.maskCap w.toNat h.toNat num.toInt den.toInt → LegalCtrl s.ctrl →
    ∃ t, exec (.negotiate w h num den) s = .next t ∧ t.mask = rasterizeLoops (w.toNat / 32)

/-- 40_disc_rasterizer.md R113 (a) to (d): the mask is symmetric about row R and column R and under exchange of row and
column; row 0 and column 0 are empty, and for odd D so are the last row and column; the set cells lie in rows and
columns 1 .. 2R - 1, and rows 1 and 2R - 1 each have the cell in column R. -/
def Obligations.MaskIsSymmetric : Prop :=
  ∀ d : Nat,
    let r := d / 2
    let cell := fun h w : Nat => (rasterize d)[h * d + w]?
    (∀ h w, 1 ≤ h → h < 2 * r → 1 ≤ w → w < 2 * r →
      cell (2 * r - h) w = cell h w ∧ cell h (2 * r - w) = cell h w ∧ cell w h = cell h w) ∧
    (∀ i, i < d → cell 0 i = some false ∧ cell i 0 = some false) ∧
    (d % 2 = 1 → ∀ i, i < d → cell (d - 1) i = some false ∧ cell i (d - 1) = some false) ∧
    (∀ h w, h < d → w < d → cell h w = some true → 1 ≤ h ∧ h ≤ 2 * r - 1 ∧ 1 ≤ w ∧ w ≤ 2 * r - 1) ∧
    (1 ≤ r → cell 1 r = some true ∧ cell (2 * r - 1) r = some true)

/-- 40_disc_rasterizer.md R114: two accepted widths in the same block of 32 give the same DIAM, RADIUS and MASK. -/
def Obligations.MaskDependsOnTheWidthBlockOnly : Prop :=
  ∀ (s₁ s₂ : State) (w₁ h₁ w₂ h₂ : BitVec 16) (num₁ den₁ num₂ den₂ : BitVec 32),
    AcceptedFormat s₁.cfg.maskCap w₁.toNat h₁.toNat num₁.toInt den₁.toInt → LegalCtrl s₁.ctrl →
    AcceptedFormat s₂.cfg.maskCap w₂.toNat h₂.toNat num₂.toInt den₂.toInt → LegalCtrl s₂.ctrl →
    w₁.toNat / 32 = w₂.toNat / 32 →
    ∃ t₁ t₂, exec (.negotiate w₁ h₁ num₁ den₁) s₁ = .next t₁ ∧
      exec (.negotiate w₂ h₂ num₂ den₂) s₂ = .next t₂ ∧
      t₁.diam = t₂.diam ∧ t₁.radius = t₂.radius ∧ t₁.mask = t₂.mask

/-- 40_disc_rasterizer.md R100 (state written), R110: whatever NEGOTIATE answers, CTRL, COUNTER, the ports' input, the
parameters, the host's script and every byte of frame space are unchanged. -/
def Obligations.NegotiateKeepsEverythingElse : Prop :=
  ∀ (s t : State) (w h : BitVec 16) (num den : BitVec 32), exec (.negotiate w h num den) s = .next t →
    t.ctrl = s.ctrl ∧ t.counter = s.counter ∧ t.port = s.port ∧ t.cfg = s.cfg ∧ t.host = s.host ∧
    ∀ a, t.frame.read a = s.frame.read a

/-- 40_disc_rasterizer.md R111, R110: what a NEGOTIATE leaves does not depend on the earlier configuration: two states
that agree on CTRL and MASK_CAP, and on nothing else, end with the same configuration and the same response. -/
def Obligations.RenegotiationForgetsTheOldFormat : Prop :=
  ∀ (s₁ s₂ t₁ t₂ : State) (w h : BitVec 16) (num den : BitVec 32),
    s₁.ctrl = s₂.ctrl → s₁.cfg = s₂.cfg →
    exec (.negotiate w h num den) s₁ = .next t₁ → exec (.negotiate w h num den) s₂ = .next t₂ →
    t₁.status = t₂.status ∧ t₁.width = t₂.width ∧ t₁.height = t₂.height ∧ t₁.fps = t₂.fps ∧
    t₁.diam = t₂.diam ∧ t₁.radius = t₂.radius ∧ t₁.loff = t₂.loff ∧ t₁.uoff = t₂.uoff ∧
    t₁.voff = t₂.voff ∧ t₁.color = t₂.color ∧ t₁.minlen = t₂.minlen ∧ t₁.mask = t₂.mask ∧
    t₁.rsp = t₂.rsp

/-! ## CONVERT -/

/-- 41_rgb_to_yuv_converter.md R140: in every state CONVERT answers the triple of R132 in exact rational arithmetic
and changes nothing but the response. -/
def Obligations.ConvertAnswersTheExactColour : Prop :=
  ∀ (s : State) (r g b : Byte) (std : Standard) (rng : Range),
    exec (.convert r g b std rng) s = .next { s with
      rsp := some ⟨.ok, false, false, .noReason, 0x04,
        (rgbToYuvExact r g b std rng).packed.setWidth 64⟩ }

/-- 41_rgb_to_yuv_converter.md R141: the integer form equals the rational definition of R132 on every input, with
S <= 255 * Q; -255 * (Q - kb) and -255 * (Q - kr) are the least values of Q * B - S and Q * R - S, taken at
(255, 255, 0) and (0, 255, 255); every chroma numerator is a non-negative integer, at most
65535 * 9278 + 224 * 255 * 9278, which blue takes under BT709 Studio, and every numerator is below 2^31. -/
def Obligations.ConverterIntegerFormIsExact : Prop :=
  ∀ (r g b : Byte) (std : Standard) (rng : Range),
    let k := coefficients std
    let sum := weightedSum k r.toNat g.toNat b.toNat
    let largest : Int := 65535 * 9278 + 224 * 255 * 9278
    let small := fun n : Int => 0 ≤ n ∧ n ≤ largest ∧ n < 2 ^ 31
    rgbToYuv r g b std rng = rgbToYuvExact r g b std rng ∧ sum ≤ 255 * k.q ∧
    2 * sum + k.q < 2 ^ 31 ∧ 438 * sum + 8415 * k.q < 2 ^ 31 ∧
    -255 * ((k.q : Int) - k.kb) ≤ (k.q * b.toNat : Int) - sum ∧
    -255 * ((k.q : Int) - k.kr) ≤ (k.q * r.toNat : Int) - sum ∧
    (k.q * 0 : Int) - weightedSum k 255 255 0 = -255 * ((k.q : Int) - k.kb) ∧
    (k.q * 0 : Int) - weightedSum k 0 255 255 = -255 * ((k.q : Int) - k.kr) ∧
    small ((k.q * b.toNat : Int) - sum + 257 * ((k.q : Int) - k.kb)) ∧
    small ((k.q * r.toNat : Int) - sum + 257 * ((k.q : Int) - k.kr)) ∧
    small (224 * ((k.q * b.toNat : Int) - sum) + 65535 * ((k.q : Int) - k.kb)) ∧
    small (224 * ((k.q * r.toNat : Int) - sum) + 65535 * ((k.q : Int) - k.kr)) ∧
    (std = .bt709 → 224 * ((k.q * 255 : Int) - weightedSum k 0 0 255) + 65535 * ((k.q : Int) - k.kb) = largest)

/-- 41_rgb_to_yuv_converter.md R142: grey gives U = V = 128, Y = n in Full range and the rounded n * 219 / 255 + 16 in
Studio range (16, 126 and 235 for n = 0, 128 and 255); and the ranges of the outputs over all inputs. -/
def Obligations.GreyAxisAndOutputRanges : Prop :=
  (∀ (n : Byte) (std : Standard) (rng : Range),
    (rgbToYuv n n n std rng).u = 128 ∧ (rgbToYuv n n n std rng).v = 128) ∧
  (∀ (n : Byte) (std : Standard), (rgbToYuv n n n std .full).y = n ∧
    (((rgbToYuv n n n std .studio).y.toNat : Nat) : Int) = roundHalfUp ((n.toNat : Rat) * 219 / 255 + 16)) ∧
  (∀ std, (rgbToYuv 0 0 0 std .studio).y = 16 ∧ (rgbToYuv 128 128 128 std .studio).y = 126 ∧
    (rgbToYuv 255 255 255 std .studio).y = 235) ∧
  (∀ (r g b : Byte) (std : Standard),
    1 ≤ (rgbToYuv r g b std .full).u.toNat ∧ 1 ≤ (rgbToYuv r g b std .full).v.toNat ∧
    16 ≤ (rgbToYuv r g b std .studio).y.toNat ∧ (rgbToYuv r g b std .studio).y.toNat ≤ 235 ∧
    16 ≤ (rgbToYuv r g b std .studio).u.toNat ∧ (rgbToYuv r g b std .studio).u.toNat ≤ 240 ∧
    16 ≤ (rgbToYuv r g b std .studio).v.toNat ∧ (rgbToYuv r g b std .studio).v.toNat ≤ 240)

/-- 41_rgb_to_yuv_converter.md R139: the six values COLOR can take. -/
def Obligations.OverlayColourTable : Prop :=
  overlayColor .bt601 .full = 0xFF554C ∧ overlayColor .bt601 .studio = 0xF05A51 ∧
  overlayColor .bt709 .full = 0xFF6336 ∧ overlayColor .bt709 .studio = 0xF0663F ∧
  overlayColor .fcc .full = 0xFF554D ∧ overlayColor .fcc .studio = 0xF05A52

/-- 70_reset_and_hazards.md R223 (CONVERT, RDREG, RDMASK: no state change): each register, the mask, the ports' input
and every byte of frame space are as before; only the response is new. -/
def Obligations.ObservationCommandsChangeNothing : Prop :=
  ∀ s t : State,
    (∀ r g b std rng, exec (.convert r g b std rng) s = .next t → s.SameButResponse t) ∧
    (∀ idx, exec (.rdreg idx) s = .next t → s.SameButResponse t) ∧
    (∀ cell, exec (.rdmask cell) s = .next t → s.SameButResponse t)

/-! ## FRAME -/

/-- 42_yuv_plane_compositor.md R151, R161: in every state of the invariant FRAME adds 1 to COUNTER modulo 2^32 and
answers OK with FWD = 1 and the new COUNTER, drawn or not. -/
def Obligations.FrameAlwaysCountsAndForwards : Prop :=
  ∀ (s : State) (len : BitVec 64) (wr : Bool), s.Inv →
    ∃ t drawn reason, exec (.frame len wr) s = .next t ∧
      t.counter.toNat = (s.counter.toNat + 1) % 2 ^ 32 ∧
      t.rsp = some ⟨.ok, true, drawn, reason, 0x02, t.counter.setWidth 64⟩ ∧
      (drawn = true ↔ reason = .noReason)

/-- 42_yuv_plane_compositor.md R152 to R155, R158: in every state, when a condition for not drawing holds, the frame is
untouched, the response names the first such condition, and nothing but COUNTER and the response changes. The last
clause asks for FPS >= 1, which the invariant gives whenever VALID = 1. -/
def Obligations.FramePassesThroughForTheFirstReason : Prop :=
  ∀ (s : State) (len : BitVec 64) (wr : Bool),
    let c := s.counter + 1
    let passed : Reason → Result := fun reason => .next { s with
      counter := c, rsp := some ⟨.ok, true, false, reason, 0x02, c.setWidth 64⟩ }
    (s.valid = false → exec (.frame len wr) s = passed .unconfigured) ∧
    (s.valid = true → wr = false → exec (.frame len wr) s = passed .notWritable) ∧
    (s.valid = true → wr = true → len.toNat < s.minlen.toNat → exec (.frame len wr) s = passed .short) ∧
    (s.valid = true → wr = true → s.minlen.toNat ≤ len.toNat → s.showOverlay = false →
      exec (.frame len wr) s = passed .showOff) ∧
    (s.valid = true → wr = true → s.minlen.toNat ≤ len.toNat → s.showOverlay = true →
      1 ≤ s.fps.toNat → ¬ c.toNat % s.fps.toNat < s.fps.toNat / 2 → exec (.frame len wr) s = passed .hidden)

/-- 42_yuv_plane_compositor.md R156, R157: a FRAME that draws writes, for each inside cell in raster order, COLOR.Y at
LOFF + h * W + w, COLOR.U at UOFF + (h / 2) * (W / 2) + w / 2 and COLOR.V at VOFF plus the same term, in this order,
and changes nothing else but COUNTER and the response. -/
def Obligations.FrameDrawsTheDiscInRasterOrder : Prop :=
  ∀ (s : State) (len : BitVec 64), s.Inv → s.valid = true → s.minlen.toNat ≤ len.toNat →
    s.showOverlay = true → (s.counter + 1).toNat % s.fps.toNat < s.fps.toNat / 2 →
    let w := s.width.toNat
    let writes := (discCells s.diam.toNat s.radius.toNat).flatMap fun cell =>
      [(s.loff.toNat + cell.1 * w + cell.2, s.color.extractLsb' 0 8),
       (s.uoff.toNat + (cell.1 / 2) * (w / 2) + cell.2 / 2, s.color.extractLsb' 8 8),
       (s.voff.toNat + (cell.1 / 2) * (w / 2) + cell.2 / 2, s.color.extractLsb' 16 8)]
    exec (.frame len true) s = .next { s with
      counter := s.counter + 1
      frame := s.frame.writeAll writes
      rsp := some ⟨.ok, true, true, .noReason, 0x02, (s.counter + 1).setWidth 64⟩ }

/-- 42_yuv_plane_compositor.md R150 (state written), R160: whatever FRAME answers, every register but COUNTER is
unchanged, and every byte of frame space outside the addresses of the overlay's writes reads as before; when it did
not draw, every byte does. -/
def Obligations.FrameKeepsEverythingElse : Prop :=
  ∀ (s t : State) (len : BitVec 64) (wr : Bool), exec (.frame len wr) s = .next t →
    { t with counter := s.counter, frame := s.frame, rsp := s.rsp } = s ∧
    (∀ a, (∀ writes, s.overlayWrites = .ok writes → ∀ c ∈ writes, c.1 ≠ a) →
      t.frame.read a = s.frame.read a) ∧
    (∀ r, t.rsp = some r → r.drawn = false → ∀ a, t.frame.read a = s.frame.read a)

/-- 42_yuv_plane_compositor.md R160 for the formats whose planes hold the disc (even W, even H, H >= 2 * DIAM): after a
FRAME that draws, each inside cell's luma byte is COLOR.Y, its byte through UOFF COLOR.U and through VOFF COLOR.V. -/
def Obligations.DrawnFrameShowsTheDisc : Prop :=
  ∀ (s : State) (len : BitVec 64), s.Inv → s.valid = true → s.minlen.toNat ≤ len.toNat →
    s.showOverlay = true → (s.counter + 1).toNat % s.fps.toNat < s.fps.toNat / 2 →
    s.width.toNat % 2 = 0 → s.height.toNat % 2 = 0 → 2 * s.diam.toNat ≤ s.height.toNat →
    ∃ t, exec (.frame len true) s = .next t ∧
      ∀ cell ∈ discCells s.diam.toNat s.radius.toNat,
        t.frame.read (s.lumaAddr cell.1 cell.2) = some (s.color.extractLsb' 0 8) ∧
        t.frame.read (s.uAddr cell.1 cell.2) = some (s.color.extractLsb' 8 8) ∧
        t.frame.read (s.vAddr cell.1 cell.2) = some (s.color.extractLsb' 16 8)

/-- 40_disc_rasterizer.md R115, 42_yuv_plane_compositor.md R163: for even W, even H and H >= 2 * DIAM a cell of the box
is luma sample (D + h, D + w), and chroma sample (R + h / 2, R + w / 2) of the first plane through VOFF and of the
second plane through UOFF, each inside its plane (20_memory.md R60). -/
def Obligations.PlanesContainTheBox : Prop :=
  ∀ s : State, s.Configured → s.width.toNat % 2 = 0 → s.height.toNat % 2 = 0 →
    2 * s.diam.toNat ≤ s.height.toNat →
    let w := s.width.toNat
    let h := s.height.toNat
    let d := s.diam.toNat
    let r := s.radius.toNat
    ∀ y x, y < d → x < d →
      s.lumaAddr y x = (d + y) * w + (d + x) ∧ d + y < h ∧ d + x < w ∧
      s.vAddr y x = w * h + (r + y / 2) * (w / 2) + (r + x / 2) ∧
      s.uAddr y x = w * h + w * h / 4 + (r + y / 2) * (w / 2) + (r + x / 2) ∧
      r + y / 2 < h / 2 ∧ r + x / 2 < w / 2 ∧
      s.lumaAddr y x < w * h ∧ s.vAddr y x < w * h + w * h / 4 ∧ s.uAddr y x < w * h * 3 / 2

/-- 20_memory.md R62: under the invariant every address FRAME writes is below MINLEN, and MINLEN <= LEN whenever FRAME
draws, so no write falls outside frame space. -/
def Obligations.EveryWriteIsInsideTheFrame : Prop :=
  ∀ s : State, s.Inv → s.valid = true →
    (∀ writes, s.overlayWrites = .ok writes → ∀ c ∈ writes, c.1 < s.minlen.toNat) ∧
    (∀ (len : BitVec 64) (wr : Bool) (t : State) (r : Response), exec (.frame len wr) s = .next t →
      t.rsp = some r → r.drawn = true →
      s.minlen.toNat ≤ len.toNat ∧
      ∀ writes, s.overlayWrites = .ok writes → ∀ c ∈ writes, c.1 < len.toNat)

/-- 60_exceptions.md R206: a FRAME performs at most 3 * D^2 byte writes. -/
def Obligations.OverlayWritesAreBounded : Prop :=
  ∀ (s : State) (writes : List Host.Cell), s.overlayWrites = .ok writes →
    writes.length ≤ 3 * (s.diam.toNat * s.diam.toNat)

/-- 42_yuv_plane_compositor.md R159 (a), (b): each window of FPS counter values from a multiple of FPS has its first
FPS / 2 values visible and the rest hidden; FPS = 1 never draws, FPS = 2 at even counts, FPS = 3 at multiples of 3. -/
def Obligations.BlinkScheduleShape : Prop :=
  (∀ fps a j : Nat, j < fps → (visible (a * fps + j) fps = true ↔ j < fps / 2)) ∧
  (∀ fps a : Nat, 1 ≤ fps →
    ((List.range fps).filter fun j => visible (a * fps + j) fps).length = fps / 2) ∧
  (∀ c : Nat, visible c 1 = false ∧ (visible c 2 = true ↔ c % 2 = 0) ∧ (visible c 3 = true ↔ c % 3 = 0))

/-- 42_yuv_plane_compositor.md R165: flipping CTRL.SILENT changes nothing of what FRAME does. -/
def Obligations.SilentHasNoEffectOnFrame : Prop :=
  ∀ (s t : State) (len : BitVec 64) (wr : Bool), exec (.frame len wr) s = .next t →
    exec (.frame len wr) { s with ctrl := s.ctrl ^^^ 1 } = .next { t with ctrl := s.ctrl ^^^ 1 }

/-- 20_memory.md R54: FRAME never reads frame space: whatever stands in the frame, the answer and every register are
the same. A byte that FRAME does not write, because it did not draw or because no write of the overlay has its address,
keeps in both frames the value the host left there; a byte it writes becomes the same in both. -/
def Obligations.FrameNeverReadsFrameSpace : Prop :=
  ∀ (s t : State) (other : Memory) (len : BitVec 64) (wr : Bool), exec (.frame len wr) s = .next t →
    let written := fun a : Nat => (∃ r, t.rsp = some r ∧ r.drawn = true) ∧
      ∃ writes, s.overlayWrites = .ok writes ∧ ∃ c ∈ writes, c.1 = a
    ∃ u, exec (.frame len wr) { s with frame := other } = .next u ∧ { u with frame := t.frame } = t ∧
      ∀ a, (¬ written a → t.frame.read a = s.frame.read a ∧ u.frame.read a = other.read a) ∧
        (written a → ∃ v, t.frame.read a = some v ∧ u.frame.read a = some v)

/-! ## EOS, WRCTRL, RDREG, RDMASK -/

/-- 43_control_readback.md R182: EOS releases in every state, answers OK with FWD = 1, and keeps COUNTER, CTRL and
frame space. -/
def Obligations.EosReleasesTheConfiguration : Prop :=
  ∀ s : State, exec .eos s = .next { s with
    status := 0, width := 0, height := 0, fps := 0, diam := 0, radius := 0, loff := 0, uoff := 0,
    voff := 0, color := 0, minlen := 0, mask := [],
    rsp := some ⟨.ok, true, false, .noReason, 0x03, 0⟩ }

/-- 43_control_readback.md R184: WRCTRL writes CTRL whole and nothing else. The second clause is the model's own choice
for a term that no descriptor decodes to (log entry 15): the reserved STD is answered ERR_ILLEGAL, CTRL unchanged. -/
def Obligations.WrctrlWritesCtrlWhole : Prop :=
  ∀ (s : State) (value : BitVec 5),
    (LegalCtrl value → exec (.wrctrl value) s = .next { s with
      ctrl := value, rsp := some ⟨.ok, false, false, .noReason, 0x05, 0⟩ }) ∧
    (¬ LegalCtrl value → exec (.wrctrl value) s = .next { s with
      rsp := some ⟨.errIllegal, false, false, .noReason, 0x05, 0⟩ })

/-- 70_reset_and_hazards.md R226: a WRCTRL leaves COLOR as it is; the next accepted NEGOTIATE converts under the new STD
and RNG; SHOW is sampled by the next FRAME: with 0 it passes the frame through, with 1 and a visible phase it draws. -/
def Obligations.ColourIsSampledAtNegotiate : Prop :=
  ∀ (s : State) (value : BitVec 5), LegalCtrl value →
    ∃ t, exec (.wrctrl value) s = .next t ∧ t.color = s.color ∧
      (∀ (w h : BitVec 16) (num den : BitVec 32) (std : Standard),
        AcceptedFormat s.cfg.maskCap w.toNat h.toNat num.toInt den.toInt →
        std.bits = value.extractLsb' 2 2 →
        ∃ u, exec (.negotiate w h num den) t = .next u ∧
          u.color = (rgbToYuvExact 255 0 0 std (if value.getLsbD 4 then .studio else .full)).packed) ∧
      (∀ len : BitVec 64, s.valid = true → s.minlen.toNat ≤ len.toNat → value.getLsbD 1 = false →
        ∃ u, exec (.frame len true) t = .next u ∧
          u.rsp = some ⟨.ok, true, false, .showOff, 0x02, (s.counter + 1).setWidth 64⟩) ∧
      (∀ len : BitVec 64, s.Inv → s.valid = true → s.minlen.toNat ≤ len.toNat → value.getLsbD 1 = true →
        (s.counter + 1).toNat % s.fps.toNat < s.fps.toNat / 2 →
        ∃ u, exec (.frame len true) t = .next u ∧
          u.rsp = some ⟨.ok, true, true, .noReason, 0x02, (s.counter + 1).setWidth 64⟩)

/-- 43_control_readback.md R186: RDREG answers the register of 10_state.md R23 zero-extended, in every state, and
ERR_RANGE for IDX 13 to 255; nothing but the response changes. -/
def Obligations.RdregReadsTheRegisterMap : Prop :=
  ∀ s : State,
    (∀ entry ∈ ([(0, s.ctrl.setWidth 64), (1, s.status.setWidth 64), (2, s.width.setWidth 64),
        (3, s.height.setWidth 64), (4, s.fps.setWidth 64), (5, s.diam.setWidth 64),
        (6, s.radius.setWidth 64), (7, s.loff.setWidth 64), (8, s.uoff.setWidth 64),
        (9, s.voff.setWidth 64), (10, s.color.setWidth 64), (11, s.counter.setWidth 64),
        (12, s.minlen.setWidth 64)] : List (Byte × BitVec 64)),
      exec (.rdreg entry.1) s = .next { s with
        rsp := some ⟨.ok, false, false, .noReason, 0x06, entry.2⟩ }) ∧
    (∀ idx : Byte, 12 < idx.toNat → exec (.rdreg idx) s = .next { s with
      rsp := some ⟨.errRange, false, false, .noReason, 0x06, 0⟩ })

/-- 43_control_readback.md R188: RDMASK answers ERR_RANGE when the block is not configured or CELL >= DIAM^2, and else
the cell of row CELL / DIAM and column CELL mod DIAM, which under the invariant is the disc test of R113. -/
def Obligations.RdmaskReadsTheDisc : Prop :=
  ∀ (s : State) (cell : BitVec 32),
    let d := s.diam.toNat
    let r : Int := s.radius.toNat
    let x : Int := cell.toNat % d
    let y : Int := cell.toNat / d
    (s.valid = false ∨ d * d ≤ cell.toNat → exec (.rdmask cell) s = .next { s with
      rsp := some ⟨.errRange, false, false, .noReason, 0x07, 0⟩ }) ∧
    (s.Inv → s.valid = true → cell.toNat < d * d → exec (.rdmask cell) s = .next { s with
      rsp := some ⟨.ok, false, false, .noReason, 0x07,
        if (x - r) ^ 2 + (y - r) ^ 2 < r ^ 2 then 1 else 0⟩ })

/-! ## Whole-machine rules -/

/-- 10_state.md R23 (written by), 20_memory.md R51, 60_exceptions.md R207: only FRAME reaches frame space and COUNTER,
only WRCTRL writes CTRL, only NEGOTIATE and EOS write STATUS, the geometry, COLOR and MASK; no command touches the
command port, the parameters or the host's script. -/
def Obligations.StateIsWrittenOnlyByItsOwners : Prop :=
  ∀ (i : Instr) (s t : State), exec i s = .next t →
    ((∀ len wr, i ≠ .frame len wr) → t.frame = s.frame ∧ t.counter = s.counter) ∧
    ((∀ len wr, i = .frame len wr → t.counter = s.counter + 1)) ∧
    ((∀ value, i ≠ .wrctrl value) → t.ctrl = s.ctrl) ∧
    ((∀ w h num den, i ≠ .negotiate w h num den) → i ≠ .eos →
      t.status = s.status ∧ t.width = s.width ∧ t.height = s.height ∧ t.fps = s.fps ∧
      t.diam = s.diam ∧ t.radius = s.radius ∧ t.loff = s.loff ∧ t.uoff = s.uoff ∧ t.voff = s.voff ∧
      t.color = s.color ∧ t.minlen = s.minlen ∧ t.mask = s.mask) ∧
    t.port = s.port ∧ t.cfg = s.cfg ∧ t.host = s.host

/-- 70_reset_and_hazards.md R223: the state diagram: a NEGOTIATE ends configured exactly when its format is accepted,
EOS ends unconfigured, and every other command leaves VALID as it was. -/
def Obligations.ValidFollowsTheStateDiagram : Prop :=
  ∀ (i : Instr) (s t : State), exec i s = .next t →
    match i with
    | .negotiate w h num den =>
      (t.valid = true ↔ AcceptedFormat s.cfg.maskCap w.toNat h.toNat num.toInt den.toInt)
    | .eos => t.valid = false
    | .frame _ _ | .convert _ _ _ _ _ | .wrctrl _ | .rdreg _ | .rdmask _ => t.valid = s.valid

/-- 30_encoding.md R78: every command answers, with its opcode as ECHO; a status other than OK comes with FWD, DRAWN,
REASON and DATA all zero; DRAWN and a REASON stand only in the response to a FRAME, never both. -/
def Obligations.EveryCommandAnswersOnce : Prop :=
  ∀ (i : Instr) (s t : State), exec i s = .next t →
    ∃ r, t.rsp = some r ∧ r.echo = i.opcode ∧
      (r.st ≠ .ok → r.fwd = false ∧ r.drawn = false ∧ r.reason = .noReason ∧ r.data = 0) ∧
      (r.drawn = true → r.reason = .noReason ∧ ∃ len wr, i = .frame len wr) ∧
      (r.reason ≠ .noReason → r.drawn = false ∧ ∃ len wr, i = .frame len wr)

/-- 30_encoding.md R80: FWD = 1 in the response of every FRAME, every EOS and every NEGOTIATE that succeeds, and in no
other response. -/
def Obligations.ForwardFlagFollowsTheCommand : Prop :=
  ∀ (i : Instr) (s t : State) (r : Response), exec i s = .next t → t.rsp = some r →
    (r.fwd = true ↔
      (∃ len wr, i = .frame len wr) ∨ i = .eos ∨
      (∃ w h num den, i = .negotiate w h num den ∧ r.st = .ok))

/-- 30_encoding.md R78: the response descriptor field by field, the unassigned bits and r3 zero; the number of every
status code (60_exceptions.md R200) and of every REASON (42_yuv_plane_compositor.md R155). -/
def Obligations.ResponseDescriptorLayout : Prop :=
  (∀ r : Response,
    r.descriptor.w0.extractLsb' 0 8 = r.st.code ∧
    r.descriptor.w0.getLsbD 8 = r.fwd ∧ r.descriptor.w0.getLsbD 9 = r.drawn ∧
    r.descriptor.w0.extractLsb' 10 2 = 0 ∧
    r.descriptor.w0.extractLsb' 12 3 = r.reason.code ∧
    r.descriptor.w0.extractLsb' 15 9 = 0 ∧ r.descriptor.w0.extractLsb' 24 8 = r.echo ∧
    r.descriptor.w1 = r.data.extractLsb' 0 32 ∧ r.descriptor.w2 = r.data.extractLsb' 32 32 ∧
    r.descriptor.w3 = 0) ∧
  (∀ st : Status, st.code.toNat = match st with
    | .ok => 0 | .errIllegal => 1 | .errDim => 2 | .errFraction => 3
    | .errRate => 4 | .errNomem => 5 | .errGeometry => 6 | .errRange => 7) ∧
  (∀ reason : Reason, reason.code.toNat = match reason with
    | .noReason => 0 | .unconfigured => 1 | .notWritable => 2
    | .short => 3 | .showOff => 4 | .hidden => 5)

/-- 30_encoding.md R88: no line but RAW assembles to an illegal command; what it assembles to is the encoding of a
well-formed instruction. -/
def Obligations.AssemblerProducesOnlyLegalCommands : Prop :=
  ∀ (line : AsmLine) (d : Descriptor), (∀ w0 w1 w2 w3, line ≠ .raw w0 w1 w2 w3) →
    line.assemble = some d → d.legal = true ∧ ∃ i : Instr, i.wellFormed = true ∧ encode i = d

/-- 10_state.md R24 and R32, 20_memory.md R62, 60_exceptions.md R206: after every step from a state of the invariant
nothing is left that a command could stop on. STD is a standard; a mask cell holds a value exactly when the block is
configured and the cell is below DIAM^2; a drawing FRAME's writes exist and lie below MINLEN; so no command faults
(the model's own faults, log entries 5, 6 and 7, stay without cause) and none is refused. -/
def Obligations.StatesThatWouldStopNeverArise : Prop :=
  ∀ s t : State, s.Inv → step s = .next t →
    t.standard ≠ none ∧
    (∀ cell, (t.maskCell cell).isSome = true ↔ t.valid = true ∧ cell < t.diam.toNat * t.diam.toNat) ∧
    (t.valid = true → 1 ≤ t.fps.toNat ∧
      ∃ writes, t.overlayWrites = .ok writes ∧ ∀ c ∈ writes, c.1 < t.minlen.toNat) ∧
    (∀ i f, exec i t ≠ .fault f) ∧ (∀ i why, exec i t ≠ .refused why)
end

