-- ==== Sys2Proof/Laws/Bits.lean ====
section
/-! SUPPORT. Fields of a concatenation, the only bit facts the encodings need (00_scope.md R11). -/

namespace Sys2Proof

/-- A field that lies in the low part. -/
theorem extract_append_low {a b : Nat} (x : BitVec a) (y : BitVec b) (lo n : Nat) (h : lo + n ≤ b) :
    (x ++ y).extractLsb' lo n = y.extractLsb' lo n := by
  apply BitVec.eq_of_getLsbD_eq
  intro i hi
  have hb : lo + i < b := by omega
  simp only [BitVec.getLsbD_extractLsb', BitVec.getLsbD_append, hb, if_true]

/-- A field that lies in the high part. -/
theorem extract_append_high {a b : Nat} (x : BitVec a) (y : BitVec b) (lo n : Nat) (h : b ≤ lo) :
    (x ++ y).extractLsb' lo n = x.extractLsb' (lo - b) n := by
  apply BitVec.eq_of_getLsbD_eq
  intro i hi
  have hb : ¬ lo + i < b := by omega
  have e : lo + i - b = lo - b + i := by omega
  simp only [BitVec.getLsbD_extractLsb', BitVec.getLsbD_append, hb, if_false, e]

/-- A field that is the whole vector. -/
theorem extract_whole {n : Nat} (x : BitVec n) : x.extractLsb' 0 n = x := by
  apply BitVec.eq_of_getLsbD_eq
  intro i hi
  simp only [BitVec.getLsbD_extractLsb', Nat.zero_add, hi, decide_true, Bool.true_and]

/-- Every field of zero is zero. -/
theorem extract_zero {n : Nat} (lo m : Nat) : (0 : BitVec n).extractLsb' lo m = 0 := by
  apply BitVec.eq_of_getLsbD_eq
  intro i hi
  simp only [BitVec.getLsbD_extractLsb', BitVec.getLsbD_zero, Bool.and_false, BitVec.ofNat_eq_ofNat]

/-- Two adjacent fields, put together again, are the field that spans them. -/
theorem append_extract {n : Nat} (x : BitVec n) (lo a b : Nat) :
    x.extractLsb' (lo + b) a ++ x.extractLsb' lo b = x.extractLsb' lo (a + b) := by
  apply BitVec.eq_of_getLsbD_eq
  intro i hi
  simp only [BitVec.getLsbD_extractLsb', BitVec.getLsbD_append]
  by_cases h : i < b
  · simp only [h, hi, if_true]
  · have h1 : i - b < a := by omega
    have h2 : lo + b + (i - b) = lo + i := by omega
    simp only [h, h1, h2, hi, if_false]

end Sys2Proof
end

