-- ==== Sys2Proof/Laws/State.lean ====
section
/-! SUPPORT. One lemma per field per named update of State, each true by unfolding the update once: no later proof
unfolds a record update. -/

namespace Sys2Proof.Machine

/-! ### respond -/

section
variable (s : State) (echo : Byte) (st : Status) (fwd drawn : Bool) (reason : Reason) (data : BitVec 64)

@[simp] theorem State.respond_ctrl : (s.respond echo st fwd drawn reason data).ctrl = s.ctrl := rfl
@[simp] theorem State.respond_status : (s.respond echo st fwd drawn reason data).status = s.status := rfl
@[simp] theorem State.respond_width : (s.respond echo st fwd drawn reason data).width = s.width := rfl
@[simp] theorem State.respond_height : (s.respond echo st fwd drawn reason data).height = s.height := rfl
@[simp] theorem State.respond_fps : (s.respond echo st fwd drawn reason data).fps = s.fps := rfl
@[simp] theorem State.respond_diam : (s.respond echo st fwd drawn reason data).diam = s.diam := rfl
@[simp] theorem State.respond_radius : (s.respond echo st fwd drawn reason data).radius = s.radius := rfl
@[simp] theorem State.respond_loff : (s.respond echo st fwd drawn reason data).loff = s.loff := rfl
@[simp] theorem State.respond_uoff : (s.respond echo st fwd drawn reason data).uoff = s.uoff := rfl
@[simp] theorem State.respond_voff : (s.respond echo st fwd drawn reason data).voff = s.voff := rfl
@[simp] theorem State.respond_color : (s.respond echo st fwd drawn reason data).color = s.color := rfl
@[simp] theorem State.respond_counter : (s.respond echo st fwd drawn reason data).counter = s.counter := rfl
@[simp] theorem State.respond_minlen : (s.respond echo st fwd drawn reason data).minlen = s.minlen := rfl
@[simp] theorem State.respond_mask : (s.respond echo st fwd drawn reason data).mask = s.mask := rfl
@[simp] theorem State.respond_port : (s.respond echo st fwd drawn reason data).port = s.port := rfl
@[simp] theorem State.respond_rsp :
    (s.respond echo st fwd drawn reason data).rsp = some ⟨st, fwd, drawn, reason, echo, data⟩ := rfl
@[simp] theorem State.respond_frame : (s.respond echo st fwd drawn reason data).frame = s.frame := rfl
@[simp] theorem State.respond_cfg : (s.respond echo st fwd drawn reason data).cfg = s.cfg := rfl
@[simp] theorem State.respond_host : (s.respond echo st fwd drawn reason data).host = s.host := rfl

end

/-! ### reject -/

section
variable (s : State) (echo : Byte) (code : Status)

@[simp] theorem State.reject_ctrl : (s.reject echo code).ctrl = s.ctrl := rfl
@[simp] theorem State.reject_status : (s.reject echo code).status = s.status := rfl
@[simp] theorem State.reject_width : (s.reject echo code).width = s.width := rfl
@[simp] theorem State.reject_height : (s.reject echo code).height = s.height := rfl
@[simp] theorem State.reject_fps : (s.reject echo code).fps = s.fps := rfl
@[simp] theorem State.reject_diam : (s.reject echo code).diam = s.diam := rfl
@[simp] theorem State.reject_radius : (s.reject echo code).radius = s.radius := rfl
@[simp] theorem State.reject_loff : (s.reject echo code).loff = s.loff := rfl
@[simp] theorem State.reject_uoff : (s.reject echo code).uoff = s.uoff := rfl
@[simp] theorem State.reject_voff : (s.reject echo code).voff = s.voff := rfl
@[simp] theorem State.reject_color : (s.reject echo code).color = s.color := rfl
@[simp] theorem State.reject_counter : (s.reject echo code).counter = s.counter := rfl
@[simp] theorem State.reject_minlen : (s.reject echo code).minlen = s.minlen := rfl
@[simp] theorem State.reject_mask : (s.reject echo code).mask = s.mask := rfl
@[simp] theorem State.reject_port : (s.reject echo code).port = s.port := rfl
@[simp] theorem State.reject_rsp : (s.reject echo code).rsp = some ⟨code, false, false, .noReason, echo, 0⟩ := rfl
@[simp] theorem State.reject_frame : (s.reject echo code).frame = s.frame := rfl
@[simp] theorem State.reject_cfg : (s.reject echo code).cfg = s.cfg := rfl
@[simp] theorem State.reject_host : (s.reject echo code).host = s.host := rfl

end

/-! ### release -/

section
variable (s : State)

@[simp] theorem State.release_ctrl : (s.release).ctrl = s.ctrl := rfl
@[simp] theorem State.release_status : (s.release).status = 0 := rfl
@[simp] theorem State.release_width : (s.release).width = 0 := rfl
@[simp] theorem State.release_height : (s.release).height = 0 := rfl
@[simp] theorem State.release_fps : (s.release).fps = 0 := rfl
@[simp] theorem State.release_diam : (s.release).diam = 0 := rfl
@[simp] theorem State.release_radius : (s.release).radius = 0 := rfl
@[simp] theorem State.release_loff : (s.release).loff = 0 := rfl
@[simp] theorem State.release_uoff : (s.release).uoff = 0 := rfl
@[simp] theorem State.release_voff : (s.release).voff = 0 := rfl
@[simp] theorem State.release_color : (s.release).color = 0 := rfl
@[simp] theorem State.release_counter : (s.release).counter = s.counter := rfl
@[simp] theorem State.release_minlen : (s.release).minlen = 0 := rfl
@[simp] theorem State.release_mask : (s.release).mask = [] := rfl
@[simp] theorem State.release_port : (s.release).port = s.port := rfl
@[simp] theorem State.release_rsp : (s.release).rsp = s.rsp := rfl
@[simp] theorem State.release_frame : (s.release).frame = s.frame := rfl
@[simp] theorem State.release_cfg : (s.release).cfg = s.cfg := rfl
@[simp] theorem State.release_host : (s.release).host = s.host := rfl

end

/-! ### writeCtrl -/

section
variable (s : State) (value : BitVec 5)

@[simp] theorem State.writeCtrl_ctrl : (s.writeCtrl value).ctrl = value := rfl
@[simp] theorem State.writeCtrl_status : (s.writeCtrl value).status = s.status := rfl
@[simp] theorem State.writeCtrl_width : (s.writeCtrl value).width = s.width := rfl
@[simp] theorem State.writeCtrl_height : (s.writeCtrl value).height = s.height := rfl
@[simp] theorem State.writeCtrl_fps : (s.writeCtrl value).fps = s.fps := rfl
@[simp] theorem State.writeCtrl_diam : (s.writeCtrl value).diam = s.diam := rfl
@[simp] theorem State.writeCtrl_radius : (s.writeCtrl value).radius = s.radius := rfl
@[simp] theorem State.writeCtrl_loff : (s.writeCtrl value).loff = s.loff := rfl
@[simp] theorem State.writeCtrl_uoff : (s.writeCtrl value).uoff = s.uoff := rfl
@[simp] theorem State.writeCtrl_voff : (s.writeCtrl value).voff = s.voff := rfl
@[simp] theorem State.writeCtrl_color : (s.writeCtrl value).color = s.color := rfl
@[simp] theorem State.writeCtrl_counter : (s.writeCtrl value).counter = s.counter := rfl
@[simp] theorem State.writeCtrl_minlen : (s.writeCtrl value).minlen = s.minlen := rfl
@[simp] theorem State.writeCtrl_mask : (s.writeCtrl value).mask = s.mask := rfl
@[simp] theorem State.writeCtrl_port : (s.writeCtrl value).port = s.port := rfl
@[simp] theorem State.writeCtrl_rsp : (s.writeCtrl value).rsp = s.rsp := rfl
@[simp] theorem State.writeCtrl_frame : (s.writeCtrl value).frame = s.frame := rfl
@[simp] theorem State.writeCtrl_cfg : (s.writeCtrl value).cfg = s.cfg := rfl
@[simp] theorem State.writeCtrl_host : (s.writeCtrl value).host = s.host := rfl

end

/-! ### setFrame -/

section
variable (s : State) (m : Memory)

@[simp] theorem State.setFrame_ctrl : (s.setFrame m).ctrl = s.ctrl := rfl
@[simp] theorem State.setFrame_status : (s.setFrame m).status = s.status := rfl
@[simp] theorem State.setFrame_width : (s.setFrame m).width = s.width := rfl
@[simp] theorem State.setFrame_height : (s.setFrame m).height = s.height := rfl
@[simp] theorem State.setFrame_fps : (s.setFrame m).fps = s.fps := rfl
@[simp] theorem State.setFrame_diam : (s.setFrame m).diam = s.diam := rfl
@[simp] theorem State.setFrame_radius : (s.setFrame m).radius = s.radius := rfl
@[simp] theorem State.setFrame_loff : (s.setFrame m).loff = s.loff := rfl
@[simp] theorem State.setFrame_uoff : (s.setFrame m).uoff = s.uoff := rfl
@[simp] theorem State.setFrame_voff : (s.setFrame m).voff = s.voff := rfl
@[simp] theorem State.setFrame_color : (s.setFrame m).color = s.color := rfl
@[simp] theorem State.setFrame_counter : (s.setFrame m).counter = s.counter := rfl
@[simp] theorem State.setFrame_minlen : (s.setFrame m).minlen = s.minlen := rfl
@[simp] theorem State.setFrame_mask : (s.setFrame m).mask = s.mask := rfl
@[simp] theorem State.setFrame_port : (s.setFrame m).port = s.port := rfl
@[simp] theorem State.setFrame_rsp : (s.setFrame m).rsp = s.rsp := rfl
@[simp] theorem State.setFrame_frame : (s.setFrame m).frame = m := rfl
@[simp] theorem State.setFrame_cfg : (s.setFrame m).cfg = s.cfg := rfl
@[simp] theorem State.setFrame_host : (s.setFrame m).host = s.host := rfl

end

/-! ### countFrame -/

section
variable (s : State)

@[simp] theorem State.countFrame_ctrl : (s.countFrame).ctrl = s.ctrl := rfl
@[simp] theorem State.countFrame_status : (s.countFrame).status = s.status := rfl
@[simp] theorem State.countFrame_width : (s.countFrame).width = s.width := rfl
@[simp] theorem State.countFrame_height : (s.countFrame).height = s.height := rfl
@[simp] theorem State.countFrame_fps : (s.countFrame).fps = s.fps := rfl
@[simp] theorem State.countFrame_diam : (s.countFrame).diam = s.diam := rfl
@[simp] theorem State.countFrame_radius : (s.countFrame).radius = s.radius := rfl
@[simp] theorem State.countFrame_loff : (s.countFrame).loff = s.loff := rfl
@[simp] theorem State.countFrame_uoff : (s.countFrame).uoff = s.uoff := rfl
@[simp] theorem State.countFrame_voff : (s.countFrame).voff = s.voff := rfl
@[simp] theorem State.countFrame_color : (s.countFrame).color = s.color := rfl
@[simp] theorem State.countFrame_counter : (s.countFrame).counter = s.counter + 1 := rfl
@[simp] theorem State.countFrame_minlen : (s.countFrame).minlen = s.minlen := rfl
@[simp] theorem State.countFrame_mask : (s.countFrame).mask = s.mask := rfl
@[simp] theorem State.countFrame_port : (s.countFrame).port = s.port := rfl
@[simp] theorem State.countFrame_rsp : (s.countFrame).rsp = s.rsp := rfl
@[simp] theorem State.countFrame_frame : (s.countFrame).frame = s.frame := rfl
@[simp] theorem State.countFrame_cfg : (s.countFrame).cfg = s.cfg := rfl
@[simp] theorem State.countFrame_host : (s.countFrame).host = s.host := rfl

end

/-! ### install -/

section
variable (s : State) (w h : BitVec 16) (fps : Nat) (color : BitVec 24)

@[simp] theorem State.install_ctrl : (s.install w h fps color).ctrl = s.ctrl := rfl
@[simp] theorem State.install_status : (s.install w h fps color).status = 1 := rfl
@[simp] theorem State.install_width : (s.install w h fps color).width = w := rfl
@[simp] theorem State.install_height : (s.install w h fps color).height = h := rfl
@[simp] theorem State.install_fps : (s.install w h fps color).fps = BitVec.ofNat 32 fps := rfl
@[simp] theorem State.install_diam : (s.install w h fps color).diam = BitVec.ofNat 11 (diameter w.toNat) := rfl
@[simp] theorem State.install_radius :
    (s.install w h fps color).radius = BitVec.ofNat 10 (Machine.radius w.toNat) := rfl
@[simp] theorem State.install_loff : (s.install w h fps color).loff = BitVec.ofNat 33 (lumaOffset w.toNat) := rfl
@[simp] theorem State.install_uoff :
    (s.install w h fps color).uoff = BitVec.ofNat 33 (uOffset w.toNat h.toNat) := rfl
@[simp] theorem State.install_voff :
    (s.install w h fps color).voff = BitVec.ofNat 33 (vOffset w.toNat h.toNat) := rfl
@[simp] theorem State.install_color : (s.install w h fps color).color = color := rfl
@[simp] theorem State.install_counter : (s.install w h fps color).counter = s.counter := rfl
@[simp] theorem State.install_minlen :
    (s.install w h fps color).minlen = BitVec.ofNat 33 (leastLength w.toNat h.toNat) := rfl
@[simp] theorem State.install_mask : (s.install w h fps color).mask = rasterize (diameter w.toNat) := rfl
@[simp] theorem State.install_port : (s.install w h fps color).port = s.port := rfl
@[simp] theorem State.install_rsp : (s.install w h fps color).rsp = s.rsp := rfl
@[simp] theorem State.install_frame : (s.install w h fps color).frame = s.frame := rfl
@[simp] theorem State.install_cfg : (s.install w h fps color).cfg = s.cfg := rfl
@[simp] theorem State.install_host : (s.install w h fps color).host = s.host := rfl

end

/-! ### lend -/

section
variable (s : State) (buffer : Memory) (rest : List HostMove)

@[simp] theorem State.lend_ctrl : (s.lend buffer rest).ctrl = s.ctrl := rfl
@[simp] theorem State.lend_status : (s.lend buffer rest).status = s.status := rfl
@[simp] theorem State.lend_width : (s.lend buffer rest).width = s.width := rfl
@[simp] theorem State.lend_height : (s.lend buffer rest).height = s.height := rfl
@[simp] theorem State.lend_fps : (s.lend buffer rest).fps = s.fps := rfl
@[simp] theorem State.lend_diam : (s.lend buffer rest).diam = s.diam := rfl
@[simp] theorem State.lend_radius : (s.lend buffer rest).radius = s.radius := rfl
@[simp] theorem State.lend_loff : (s.lend buffer rest).loff = s.loff := rfl
@[simp] theorem State.lend_uoff : (s.lend buffer rest).uoff = s.uoff := rfl
@[simp] theorem State.lend_voff : (s.lend buffer rest).voff = s.voff := rfl
@[simp] theorem State.lend_color : (s.lend buffer rest).color = s.color := rfl
@[simp] theorem State.lend_counter : (s.lend buffer rest).counter = s.counter := rfl
@[simp] theorem State.lend_minlen : (s.lend buffer rest).minlen = s.minlen := rfl
@[simp] theorem State.lend_mask : (s.lend buffer rest).mask = s.mask := rfl
@[simp] theorem State.lend_port : (s.lend buffer rest).port = [] := rfl
@[simp] theorem State.lend_rsp : (s.lend buffer rest).rsp = none := rfl
@[simp] theorem State.lend_frame : (s.lend buffer rest).frame = buffer := rfl
@[simp] theorem State.lend_cfg : (s.lend buffer rest).cfg = s.cfg := rfl
@[simp] theorem State.lend_host : (s.lend buffer rest).host = rest := rfl

end

/-! ### waitWith -/

section
variable (s : State) (bytes : List Byte) (rest : List HostMove)

@[simp] theorem State.waitWith_ctrl : (s.waitWith bytes rest).ctrl = s.ctrl := rfl
@[simp] theorem State.waitWith_status : (s.waitWith bytes rest).status = s.status := rfl
@[simp] theorem State.waitWith_width : (s.waitWith bytes rest).width = s.width := rfl
@[simp] theorem State.waitWith_height : (s.waitWith bytes rest).height = s.height := rfl
@[simp] theorem State.waitWith_fps : (s.waitWith bytes rest).fps = s.fps := rfl
@[simp] theorem State.waitWith_diam : (s.waitWith bytes rest).diam = s.diam := rfl
@[simp] theorem State.waitWith_radius : (s.waitWith bytes rest).radius = s.radius := rfl
@[simp] theorem State.waitWith_loff : (s.waitWith bytes rest).loff = s.loff := rfl
@[simp] theorem State.waitWith_uoff : (s.waitWith bytes rest).uoff = s.uoff := rfl
@[simp] theorem State.waitWith_voff : (s.waitWith bytes rest).voff = s.voff := rfl
@[simp] theorem State.waitWith_color : (s.waitWith bytes rest).color = s.color := rfl
@[simp] theorem State.waitWith_counter : (s.waitWith bytes rest).counter = s.counter := rfl
@[simp] theorem State.waitWith_minlen : (s.waitWith bytes rest).minlen = s.minlen := rfl
@[simp] theorem State.waitWith_mask : (s.waitWith bytes rest).mask = s.mask := rfl
@[simp] theorem State.waitWith_port : (s.waitWith bytes rest).port = bytes := rfl
@[simp] theorem State.waitWith_rsp : (s.waitWith bytes rest).rsp = none := rfl
@[simp] theorem State.waitWith_frame : (s.waitWith bytes rest).frame = s.frame := rfl
@[simp] theorem State.waitWith_cfg : (s.waitWith bytes rest).cfg = s.cfg := rfl
@[simp] theorem State.waitWith_host : (s.waitWith bytes rest).host = rest := rfl

end

/-! ### afterReset -/

section
variable (s : State) (rest : List HostMove)

@[simp] theorem State.afterReset_ctrl : (s.afterReset rest).ctrl = State.reset.ctrl := rfl
@[simp] theorem State.afterReset_status : (s.afterReset rest).status = State.reset.status := rfl
@[simp] theorem State.afterReset_width : (s.afterReset rest).width = State.reset.width := rfl
@[simp] theorem State.afterReset_height : (s.afterReset rest).height = State.reset.height := rfl
@[simp] theorem State.afterReset_fps : (s.afterReset rest).fps = State.reset.fps := rfl
@[simp] theorem State.afterReset_diam : (s.afterReset rest).diam = State.reset.diam := rfl
@[simp] theorem State.afterReset_radius : (s.afterReset rest).radius = State.reset.radius := rfl
@[simp] theorem State.afterReset_loff : (s.afterReset rest).loff = State.reset.loff := rfl
@[simp] theorem State.afterReset_uoff : (s.afterReset rest).uoff = State.reset.uoff := rfl
@[simp] theorem State.afterReset_voff : (s.afterReset rest).voff = State.reset.voff := rfl
@[simp] theorem State.afterReset_color : (s.afterReset rest).color = State.reset.color := rfl
@[simp] theorem State.afterReset_counter : (s.afterReset rest).counter = State.reset.counter := rfl
@[simp] theorem State.afterReset_minlen : (s.afterReset rest).minlen = State.reset.minlen := rfl
@[simp] theorem State.afterReset_mask : (s.afterReset rest).mask = State.reset.mask := rfl
@[simp] theorem State.afterReset_port : (s.afterReset rest).port = State.reset.port := rfl
@[simp] theorem State.afterReset_rsp : (s.afterReset rest).rsp = State.reset.rsp := rfl
@[simp] theorem State.afterReset_frame : (s.afterReset rest).frame = s.frame := rfl
@[simp] theorem State.afterReset_cfg : (s.afterReset rest).cfg = s.cfg := rfl
@[simp] theorem State.afterReset_host : (s.afterReset rest).host = rest := rfl

end

/-! ### VALID and the fields of CTRL read from the updated state -/

@[simp] theorem State.release_valid (s : State) : s.release.valid = false := by
  simp [State.valid]
@[simp] theorem State.install_valid (s : State) (w h : BitVec 16) (fps : Nat) (color : BitVec 24) :
    (s.install w h fps color).valid = true := by simp [State.valid]

/-- VALID depends on STATUS alone. -/
theorem State.valid_congr {s t : State} (h : s.status = t.status) : s.valid = t.valid := by
  simp [State.valid, h]

end Sys2Proof.Machine
end

