-- ==== Sys2Proof/Laws/Memory.lean ====
section
/-! SUPPORT. The laws of frame space: a read after a write, every other byte unchanged, the canonical form kept; and
the one thing a list of writes can do (20_memory.md R50 to R59). -/

namespace Sys2Proof.Machine

@[simp] theorem Memory.read_nil (a : Nat) : Memory.read [] a = none := rfl

/-- A written byte reads back (20_memory.md R57). -/
@[simp] theorem Memory.read_write_same (m : Memory) (a : Nat) (v : Byte) : (m.write a v).read a = some v := by
  induction m with
  | nil => simp [Memory.write, Memory.read]
  | cons cell rest ih =>
    obtain ⟨b, u⟩ := cell
    unfold Memory.write
    split
    · simp [Memory.read]
    · split
      · simp [Memory.read]
      · rename_i _ hne
        have : b ≠ a := fun h => hne h.symm
        simp [Memory.read, this, ih]

/-- A write leaves every other address alone (20_memory.md R54). -/
theorem Memory.read_write_other (m : Memory) {a b : Nat} (v : Byte) (h : a ≠ b) :
    (m.write a v).read b = m.read b := by
  induction m with
  | nil => simp [Memory.write, Memory.read, h, Memory.unlisted]
  | cons cell rest ih =>
    obtain ⟨c, u⟩ := cell
    unfold Memory.write
    split
    · simp [Memory.read, h]
    · split
      · rename_i _ hac
        subst hac
        simp [Memory.read, h]
      · simp [Memory.read, ih]

theorem Memory.read_write (m : Memory) (a b : Nat) (v : Byte) :
    (m.write a v).read b = if a = b then some v else m.read b := by
  split
  · rename_i h; subst h; simp
  · rename_i h; exact m.read_write_other v h

/-- The canonical form, in the words a proof uses: addresses strictly rise. -/
theorem Memory.wf_cons (a : Nat) (v : Byte) (rest : Memory) :
    Memory.wf ((a, v) :: rest) = true ↔ (∀ c ∈ rest, a < c.1) ∧ rest.wf = true := by
  induction rest generalizing a v with
  | nil => simp [Memory.wf, Memory.unlisted]
  | cons cell rest ih =>
    obtain ⟨b, u⟩ := cell
    have e : Memory.wf ((a, v) :: (b, u) :: rest) = true ↔ a < b ∧ Memory.wf ((b, u) :: rest) = true := by
      simp [Memory.wf, Memory.unlisted]
    rw [e, ih]
    constructor
    · rintro ⟨hab, hb, hw⟩
      refine ⟨?_, hb, hw⟩
      rintro c (_ | ⟨_, hc⟩)
      · exact hab
      · exact Nat.lt_trans hab (hb c hc)
    · rintro ⟨ha, hb, hw⟩
      exact ⟨ha (b, u) (by simp), hb, hw⟩

/-- The addresses a write lists are the old ones and its own. -/
theorem Memory.mem_write {m : Memory} {a : Nat} {v : Byte} {c : Host.Cell} (h : c ∈ m.write a v) :
    c = (a, v) ∨ c ∈ m := by
  induction m with
  | nil => simpa [Memory.write] using h
  | cons cell rest ih =>
    obtain ⟨b, u⟩ := cell
    unfold Memory.write at h
    split at h
    · simpa using h
    · split at h
      · rcases List.mem_cons.1 h with h | h
        · exact .inl h
        · exact .inr (List.mem_cons_of_mem _ h)
      · rcases List.mem_cons.1 h with h | h
        · exact .inr (h ▸ List.mem_cons_self ..)
        · exact (ih h).imp_right (List.mem_cons_of_mem _)

/-- A write keeps the canonical form. -/
theorem Memory.write_wf {m : Memory} (h : m.wf = true) (a : Nat) (v : Byte) : (m.write a v).wf = true := by
  induction m with
  | nil => simp [Memory.write, Memory.wf, Memory.unlisted]
  | cons cell rest ih =>
    obtain ⟨b, u⟩ := cell
    have hb := (Memory.wf_cons b u rest).1 h
    unfold Memory.write
    split
    · rename_i hlt
      refine (Memory.wf_cons _ _ _).2 ⟨?_, h⟩
      rintro c (_ | ⟨_, hc⟩)
      · exact hlt
      · exact Nat.lt_trans hlt (hb.1 c hc)
    · split
      · rename_i heq
        subst heq
        exact (Memory.wf_cons _ _ _).2 hb
      · rename_i hlt hne
        refine (Memory.wf_cons _ _ _).2 ⟨?_, ih hb.2⟩
        intro c hc
        rcases Memory.mem_write hc with rfl | hc
        · show b < a
          omega
        · exact hb.1 c hc

/-- In canonical form, reading determines the list: equal memories are equal data. -/
theorem Memory.read_eq_some_iff {m : Memory} (h : m.wf = true) (a : Nat) (v : Byte) :
    m.read a = some v ↔ (a, v) ∈ m := by
  induction m with
  | nil => simp
  | cons cell rest ih =>
    obtain ⟨b, u⟩ := cell
    have hb := (Memory.wf_cons b u rest).1 h
    unfold Memory.read
    split
    · rename_i heq
      subst heq
      have : (b, v) ∉ rest := fun hm => Nat.lt_irrefl _ (hb.1 _ hm)
      simp [this, eq_comm]
    · rename_i hne
      have : ¬ (a = b ∧ v = u) := fun hh => hne hh.1.symm
      simp [ih hb.2, this]

/-! ### Many writes -/

@[simp] theorem Memory.writeAll_nil (m : Memory) : m.writeAll [] = m := rfl

@[simp] theorem Memory.writeAll_cons (m : Memory) (c : Host.Cell) (writes : List Host.Cell) :
    m.writeAll (c :: writes) = (m.write c.1 c.2).writeAll writes := rfl

/-- All a list of writes can do: it succeeds exactly when every address is inside the frame, and then leaves the
memory written in order; otherwise it names an address outside. -/
theorem Memory.memWrites_cases (len : Nat) (m : Memory) (writes : List Host.Cell) :
    ((∀ c ∈ writes, c.1 < len) ∧ m.memWrites len writes = .ok (m.writeAll writes)) ∨
    (∃ c ∈ writes, len ≤ c.1 ∧ m.memWrites len writes = .error (.outsideFrame c.1)) := by
  induction writes generalizing m with
  | nil => exact .inl ⟨by simp, rfl⟩
  | cons c rest ih =>
    obtain ⟨a, v⟩ := c
    by_cases ha : a < len
    · have e : m.memWrites len ((a, v) :: rest) = (m.write a v).memWrites len rest := by
        simp [Memory.memWrites, Memory.memWrite, ha]
      rw [e]
      rcases ih (m.write a v) with ⟨hall, hok⟩ | ⟨c, hc, hlen, herr⟩
      · refine .inl ⟨?_, hok⟩
        rintro c (_ | ⟨_, hc⟩)
        · exact ha
        · exact hall c hc
      · exact .inr ⟨c, List.mem_cons_of_mem _ hc, hlen, herr⟩
    · refine .inr ⟨(a, v), List.mem_cons_self .., Nat.le_of_not_lt ha, ?_⟩
      simp [Memory.memWrites, Memory.memWrite, ha]

/-- Writes inside the frame succeed. -/
theorem Memory.memWrites_ok {len : Nat} {writes : List Host.Cell} (h : ∀ c ∈ writes, c.1 < len) (m : Memory) :
    m.memWrites len writes = .ok (m.writeAll writes) := by
  rcases m.memWrites_cases len writes with ⟨_, hok⟩ | ⟨c, hc, hlen, _⟩
  · exact hok
  · exact absurd (h c hc) (Nat.not_lt.2 hlen)

/-- A list of writes leaves every address that none of them names alone. -/
theorem Memory.read_writeAll_other {a : Nat} {writes : List Host.Cell} (h : ∀ c ∈ writes, c.1 ≠ a)
    (m : Memory) : (m.writeAll writes).read a = m.read a := by
  induction writes generalizing m with
  | nil => rfl
  | cons c rest ih =>
    rw [Memory.writeAll_cons, ih (fun d hd => h d (List.mem_cons_of_mem _ hd)),
      m.read_write_other _ (h c (List.mem_cons_self ..))]

/-- Where every write to an address carries one value, and there is such a write, that value is read afterwards. -/
theorem Memory.read_writeAll_same {a : Nat} {v : Byte} {writes : List Host.Cell} (hin : (a, v) ∈ writes)
    (h : ∀ c ∈ writes, c.1 = a → c.2 = v) (m : Memory) : (m.writeAll writes).read a = some v := by
  induction writes generalizing m with
  | nil => cases hin
  | cons c rest ih =>
    rw [Memory.writeAll_cons]
    by_cases hr : (a, v) ∈ rest
    · exact ih hr (fun d hd => h d (List.mem_cons_of_mem _ hd)) _
    · have hc : c = (a, v) := by
        rcases List.mem_cons.1 hin with hc | hc
        · exact hc.symm
        · exact absurd hc hr
      have hno : ∀ d ∈ rest, d.1 ≠ a := by
        intro d hd hda
        have hv := h d (List.mem_cons_of_mem _ hd) hda
        exact hr (by rw [← hda, ← hv]; exact hd)
      rw [Memory.read_writeAll_other hno, hc]
      simp

/-- After a list of writes an address holds what it held, or reads the same whatever the memory was before. -/
theorem Memory.read_writeAll_cases (a : Nat) (writes : List Host.Cell) :
    (∀ m : Memory, (m.writeAll writes).read a = m.read a) ∨
    (∃ v, ∀ m : Memory, (m.writeAll writes).read a = some v) := by
  induction writes with
  | nil => exact .inl fun _ => rfl
  | cons c rest ih =>
    rcases ih with hsame | ⟨v, hv⟩
    · by_cases hc : c.1 = a
      · refine .inr ⟨c.2, fun m => ?_⟩
        rw [Memory.writeAll_cons, hsame, ← hc]
        simp
      · refine .inl fun m => ?_
        rw [Memory.writeAll_cons, hsame, m.read_write_other _ hc]
    · exact .inr ⟨v, fun m => by rw [Memory.writeAll_cons]; exact hv _⟩

/-- An address that some write names reads one value afterwards, whatever the memory was before. -/
theorem Memory.read_writeAll_named {a : Nat} {writes : List Host.Cell} (h : ∃ c ∈ writes, c.1 = a) :
    ∃ v, ∀ m : Memory, (m.writeAll writes).read a = some v := by
  induction writes with
  | nil => simp at h
  | cons c rest ih =>
    by_cases hr : ∃ d ∈ rest, d.1 = a
    · obtain ⟨v, hv⟩ := ih hr
      exact ⟨v, fun m => by rw [Memory.writeAll_cons, hv]⟩
    · have hc : c.1 = a := by
        obtain ⟨d, hd, hda⟩ := h
        rcases List.mem_cons.1 hd with rfl | hd
        · exact hda
        · exact absurd ⟨d, hd, hda⟩ hr
      refine ⟨c.2, fun m => ?_⟩
      rw [Memory.writeAll_cons, Memory.read_writeAll_other (fun d hd hda => hr ⟨d, hd, hda⟩), ← hc]
      simp

/-- A list of writes keeps the canonical form. -/
theorem Memory.writeAll_wf {m : Memory} (h : m.wf = true) (writes : List Host.Cell) :
    (m.writeAll writes).wf = true := by
  induction writes generalizing m with
  | nil => exact h
  | cons c rest ih => exact ih (Memory.write_wf h c.1 c.2)

/-- The one write of a frame keeps the canonical form. -/
theorem Memory.memWrite_wf {len a : Nat} {v : Byte} {m m' : Memory} (h : m.wf = true)
    (hw : m.memWrite len a v = .ok m') : m'.wf = true := by
  unfold Memory.memWrite at hw
  split at hw
  · cases hw
    exact Memory.write_wf h a v
  · cases hw

/-- The writes of a frame keep the canonical form. -/
theorem Memory.memWrites_wf {len : Nat} {writes : List Host.Cell} {m m' : Memory} (h : m.wf = true)
    (hw : m.memWrites len writes = .ok m') : m'.wf = true := by
  rcases m.memWrites_cases len writes with ⟨_, hok⟩ | ⟨c, _, _, herr⟩
  · rw [hok] at hw
    cases hw
    exact Memory.writeAll_wf h writes
  · rw [herr] at hw
    cases hw

/-- Frame space at reset is in canonical form. -/
theorem State.reset_frame_wf : State.reset.frame.wf = true := rfl

end Sys2Proof.Machine
end

