-- ==== Sys2Proof/Laws/Ops.lean ====
section
/-! SUPPORT. What each shared operation, each command and the step can do, said once: the later proofs cite these
lemmas and unfold none of the definitions. -/

namespace Sys2Proof.Machine

/-! ### The command port -/

theorem wordOfBytes_bytesOfWord (w : Word) :
    wordOfBytes (w.extractLsb' 0 8) (w.extractLsb' 8 8) (w.extractLsb' 16 8) (w.extractLsb' 24 8) = w := by
  apply BitVec.eq_of_getLsbD_eq
  intro i hi
  simp only [wordOfBytes, BitVec.getLsbD_append, BitVec.getLsbD_extractLsb']
  by_cases h0 : i < 8
  · simp [h0]
  · by_cases h1 : i < 16
    · have : i - 8 < 8 := by omega
      simp [h0, this, show 8 + (i - 8) = i by omega]
    · by_cases h2 : i < 24
      · have a : ¬ i - 8 < 8 := by omega
        have b : i - 8 - 8 < 8 := by omega
        simp [h0, a, b, show 16 + (i - 8 - 8) = i by omega]
      · have a : ¬ i - 8 < 8 := by omega
        have b : ¬ i - 8 - 8 < 8 := by omega
        have c : i - 8 - 8 - 8 < 8 := by omega
        simp [h0, a, b, c, show 24 + (i - 8 - 8 - 8) = i by omega]

/-- The sixteen bytes of a descriptor give it back, with whatever follows them (30_encoding.md R71). -/
theorem descriptorOfBytes_bytes (d : Descriptor) (rest : List Byte) :
    descriptorOfBytes (d.bytes ++ rest) = some (d, rest) := by
  simp [Descriptor.bytes, bytesOfWord, descriptorOfBytes, wordOfBytes_bytesOfWord]

/-- Bytes are a descriptor exactly when there are sixteen of them (30_encoding.md R70). -/
theorem descriptorOfBytes_eq_none_iff (bs : List Byte) : descriptorOfBytes bs = none ↔ bs.length < 16 := by
  unfold descriptorOfBytes
  split
  · simp
  · rename_i h
    simp only [true_iff]
    match bs, h with
    | [], _ | [_], _ | [_, _], _ | [_, _, _], _ | [_, _, _, _], _ | [_, _, _, _, _], _ | [_, _, _, _, _, _], _
    | [_, _, _, _, _, _, _], _ | [_, _, _, _, _, _, _, _], _ | [_, _, _, _, _, _, _, _, _], _
    | [_, _, _, _, _, _, _, _, _, _], _ | [_, _, _, _, _, _, _, _, _, _, _], _
    | [_, _, _, _, _, _, _, _, _, _, _, _], _ | [_, _, _, _, _, _, _, _, _, _, _, _, _], _
    | [_, _, _, _, _, _, _, _, _, _, _, _, _, _], _ | [_, _, _, _, _, _, _, _, _, _, _, _, _, _, _], _ => simp
    | b0 :: b1 :: b2 :: b3 :: b4 :: b5 :: b6 :: b7 :: b8 :: b9 :: b10 :: b11 :: b12 :: b13 :: b14 :: b15 :: r, h =>
      exact absurd rfl (h b0 b1 b2 b3 b4 b5 b6 b7 b8 b9 b10 b11 b12 b13 b14 b15 r)

/-- What a descriptor's bytes leave over. -/
theorem descriptorOfBytes_length {bs rest : List Byte} {d : Descriptor}
    (h : descriptorOfBytes bs = some (d, rest)) : bs.length = 16 + rest.length := by
  unfold descriptorOfBytes at h
  split at h
  · cases h
    simp
    omega
  · cases h

/-- All the host's next move can give the block. -/
theorem State.takeMove_cases (s : State) :
    (s.host = [] ∧ s.takeMove = .nothing) ∨
    (∃ rest, s.host = .reset :: rest ∧ s.takeMove = .resetTo (s.afterReset rest)) ∨
    (∃ bytes buffer rest, s.host = .send bytes buffer :: rest ∧
      ((s.port ++ bytes).length < 16 ∧ s.takeMove = .waiting (s.waitWith (s.port ++ bytes) rest) ∨
       16 < (s.port ++ bytes).length ∧ s.takeMove = .overrun ∨
       ∃ d, (s.port ++ bytes).length = 16 ∧ descriptorOfBytes (s.port ++ bytes) = some (d, []) ∧
         s.takeMove = .command d (s.lend buffer rest))) := by
  unfold State.takeMove
  split
  · rename_i h
    exact .inl ⟨h, rfl⟩
  · rename_i rest h
    exact .inr (.inl ⟨rest, h, rfl⟩)
  · rename_i bytes buffer rest h
    refine .inr (.inr ⟨bytes, buffer, rest, h, ?_⟩)
    split
    · rename_i hd
      exact .inl ⟨(descriptorOfBytes_eq_none_iff _).1 hd, rfl⟩
    · rename_i d hd
      exact .inr (.inr ⟨d, by simpa using descriptorOfBytes_length hd, hd, rfl⟩)
    · rename_i d b r hd
      have := descriptorOfBytes_length hd
      exact .inr (.inl ⟨by simp at this; simp; omega, rfl⟩)

/-- A whole descriptor on the port is taken as the command (30_encoding.md R70, R71). -/
theorem State.takeMove_command {s : State} {bytes : List Byte} {buffer : Memory} {rest : List HostMove}
    {d : Descriptor} (hh : s.host = .send bytes buffer :: rest) (hb : s.port ++ bytes = d.bytes) :
    s.takeMove = .command d (s.lend buffer rest) := by
  have hd : descriptorOfBytes (s.port ++ bytes) = some (d, []) := by
    simpa [hb] using descriptorOfBytes_bytes d []
  simp [State.takeMove, hh, hd]

/-- All one step can do. -/
theorem step_cases (s : State) :
    (s.host = [] ∧ step s = .next s) ∨
    (∃ rest, s.host = .reset :: rest ∧ step s = .next (s.afterReset rest)) ∨
    (∃ bytes buffer rest, s.host = .send bytes buffer :: rest ∧
      ((s.port ++ bytes).length < 16 ∧ step s = .next (s.waitWith (s.port ++ bytes) rest) ∨
       16 < (s.port ++ bytes).length ∧ step s = .refused .commandBeforeResponse ∨
       ∃ d, (s.port ++ bytes).length = 16 ∧ descriptorOfBytes (s.port ++ bytes) = some (d, []) ∧
         ((∃ e, decode d = .error e ∧ step s = .next ((s.lend buffer rest).answerIllegal d)) ∨
          (∃ i, decode d = .ok i ∧ step s = exec i (s.lend buffer rest))))) := by
  rcases s.takeMove_cases with ⟨hh, ht⟩ | ⟨rest, hh, ht⟩ | ⟨bytes, buffer, rest, hh, h⟩
  · exact .inl ⟨hh, by simp [step, ht]⟩
  · exact .inr (.inl ⟨rest, hh, by simp [step, ht]⟩)
  · refine .inr (.inr ⟨bytes, buffer, rest, hh, ?_⟩)
    rcases h with ⟨hl, ht⟩ | ⟨hl, ht⟩ | ⟨d, hl, hd, ht⟩
    · exact .inl ⟨hl, by simp [step, ht]⟩
    · exact .inr (.inl ⟨hl, by simp [step, ht]⟩)
    · refine .inr (.inr ⟨d, hl, hd, ?_⟩)
      cases hdec : decode d with
      | error e => exact .inl ⟨e, rfl, by simp [step, ht, hdec]⟩
      | ok i => exact .inr ⟨i, rfl, by simp [step, ht, hdec]⟩

/-! ### CTRL -/

theorem Standard.ofBits_eq_none_iff (v : BitVec 2) : Standard.ofBits v = none ↔ v = 3 := by
  revert v; decide

@[simp] theorem Standard.ofBits_bits (std : Standard) : Standard.ofBits std.bits = some std := by
  cases std <;> rfl

theorem Standard.bits_of_ofBits {v : BitVec 2} {std : Standard} (h : Standard.ofBits v = some std) :
    std.bits = v := by
  revert h; revert v; cases std <;> decide

@[simp] theorem Range.ofBit_bit (rng : Range) : Range.ofBit rng.bit = rng := by cases rng <;> rfl

@[simp] theorem Range.bit_ofBit (v : BitVec 1) : (Range.ofBit v).bit = v := by revert v; decide

/-- CTRL names a standard exactly when its value is legal (10_state.md R24). -/
theorem State.standard_eq_none_iff (s : State) : s.standard = none ↔ ¬ LegalCtrl s.ctrl := by
  simp [State.standard, LegalCtrl, Standard.ofBits_eq_none_iff]

theorem State.exists_standard {s : State} (h : LegalCtrl s.ctrl) : ∃ std, s.standard = some std := by
  cases hs : s.standard with
  | none => exact absurd h ((s.standard_eq_none_iff).1 hs)
  | some std => exact ⟨std, rfl⟩

theorem Config.resetCtrl_legal : LegalCtrl Config.resetCtrl := by decide

/-! ### The commands -/

/-- The checks of NEGOTIATE pass exactly for an accepted format (40_disc_rasterizer.md R100). -/
theorem negotiateError_eq_none_iff (maskCap w h : Nat) (num den : Int) :
    negotiateError maskCap w h num den = none ↔ AcceptedFormat maskCap w h num den := by
  unfold negotiateError
  constructor
  · intro hn
    split at hn
    · cases hn
    · split at hn
      · cases hn
      · split at hn
        · cases hn
        · split at hn
          · cases hn
          · split at hn
            · cases hn
            · simp only [Config.minDim, diameter, Config.diamDiv, leastLength] at *
              exact ⟨by omega, by omega, by omega, by omega, by omega, by omega⟩
  · rintro ⟨h1, h2, h3, h4, h5, h6⟩
    have a1 : ¬ (w < Config.minDim ∨ h < Config.minDim) := by simp only [Config.minDim]; omega
    have a2 : ¬ den ≤ 0 := by omega
    have a3 : ¬ num < den := by omega
    have a4 : ¬ maskCap < diameter w * diameter w := by simpa [diameter, Config.diamDiv] using h5
    have a5 : ¬ leastLength w h < footEnd w h := by simpa [leastLength] using h6
    simp [a1, a2, a3, a4, a5]

/-- All NEGOTIATE can do (40_disc_rasterizer.md R100). -/
theorem execNegotiate_cases (w h : BitVec 16) (num den : BitVec 32) (s : State) :
    (∃ code, negotiateError s.cfg.maskCap w.toNat h.toNat (signed num) (signed den) = some code ∧
      execNegotiate w h num den s = .next (s.release.reject opNegotiate code)) ∨
    (AcceptedFormat s.cfg.maskCap w.toNat h.toNat (signed num) (signed den) ∧
      ((∃ std, s.standard = some std ∧
        execNegotiate w h num den s =
          .next ((s.install w h (frameRate num den) (overlayColor std s.range)).respond
            opNegotiate .ok true false .noReason 0)) ∨
       (s.standard = none ∧ execNegotiate w h num den s = .fault .reservedStandard))) := by
  unfold execNegotiate
  cases he : negotiateError s.cfg.maskCap w.toNat h.toNat (signed num) (signed den) with
  | some code => exact .inl ⟨code, rfl, rfl⟩
  | none =>
    refine .inr ⟨(negotiateError_eq_none_iff ..).1 he, ?_⟩
    cases hs : s.standard with
    | none => exact .inr ⟨rfl, rfl⟩
    | some std => exact .inl ⟨std, rfl, rfl⟩

/-- All FRAME can do (42_yuv_plane_compositor.md R150). -/
theorem execFrame_cases (len : BitVec 64) (wr : Bool) (s : State) :
    (∃ reason, s.countFrame.notDrawn len wr = some reason ∧
      execFrame len wr s = .next (s.countFrame.respond opFrame .ok true false reason
        ((s.counter + 1).setWidth 64))) ∨
    (s.countFrame.notDrawn len wr = none ∧
      ((∃ f, s.countFrame.composed len.toNat = .error f ∧ execFrame len wr s = .fault f) ∨
       (∃ frame, s.countFrame.composed len.toNat = .ok frame ∧
         execFrame len wr s = .next ((s.countFrame.setFrame frame).respond opFrame .ok true true .noReason
           ((s.counter + 1).setWidth 64))))) := by
  unfold execFrame
  cases hn : s.countFrame.notDrawn len wr with
  | some reason => exact .inl ⟨reason, rfl, rfl⟩
  | none =>
    refine .inr ⟨rfl, ?_⟩
    cases hc : s.countFrame.composed len.toNat with
    | error f => exact .inl ⟨f, rfl, rfl⟩
    | ok frame => exact .inr ⟨frame, rfl, rfl⟩

theorem execEos_eq (s : State) : execEos s = .next (s.release.respond opEos .ok true false .noReason 0) := rfl

theorem execConvert_eq (r g b : Byte) (std : Standard) (rng : Range) (s : State) :
    execConvert r g b std rng s =
      .next (s.respond opConvert .ok false false .noReason ((rgbToYuv r g b std rng).packed.setWidth 64)) := rfl

/-- All WRCTRL can do (43_control_readback.md R184). -/
theorem execWrctrl_cases (value : BitVec 5) (s : State) :
    (LegalCtrl value ∧
      execWrctrl value s = .next ((s.writeCtrl value).respond opWrctrl .ok false false .noReason 0)) ∨
    (¬ LegalCtrl value ∧ execWrctrl value s = .next (s.reject opWrctrl .errIllegal)) := by
  unfold execWrctrl
  split
  · rename_i h
    exact .inl ⟨h, rfl⟩
  · rename_i h
    exact .inr ⟨h, rfl⟩

/-- All RDREG can do (43_control_readback.md R186). -/
theorem execRdreg_cases (idx : Byte) (s : State) :
    (s.register idx = none ∧ execRdreg idx s = .next (s.reject opRdreg .errRange)) ∨
    (∃ value, s.register idx = some value ∧
      execRdreg idx s = .next (s.respond opRdreg .ok false false .noReason value)) := by
  unfold execRdreg
  cases h : s.register idx with
  | none => exact .inl ⟨rfl, rfl⟩
  | some value => exact .inr ⟨value, rfl, rfl⟩

/-- All RDMASK can do (43_control_readback.md R188). -/
theorem execRdmask_cases (cell : BitVec 32) (s : State) :
    ((s.valid = false ∨ s.diam.toNat * s.diam.toNat ≤ cell.toNat) ∧
      execRdmask cell s = .next (s.reject opRdmask .errRange)) ∨
    (s.valid = true ∧ cell.toNat < s.diam.toNat * s.diam.toNat ∧
      ((s.maskCell cell.toNat = none ∧ execRdmask cell s = .fault (.maskNoValue cell.toNat)) ∨
       (∃ inside, s.maskCell cell.toNat = some inside ∧
         execRdmask cell s = .next (s.respond opRdmask .ok false false .noReason (cellData inside))))) := by
  unfold execRdmask
  split
  · rename_i h
    exact .inl ⟨h, rfl⟩
  · rename_i h
    refine .inr ⟨by cases hv : s.valid <;> simp_all, by omega, ?_⟩
    cases hm : s.maskCell cell.toNat with
    | none => exact .inl ⟨rfl, rfl⟩
    | some inside => exact .inr ⟨inside, rfl, rfl⟩

/-! ### The overlay -/

/-- Raster order visits exactly the cells of the grid. -/
@[simp] theorem mem_rasterCells {d : Nat} {c : Nat × Nat} : c ∈ rasterCells d ↔ c.1 < d ∧ c.2 < d := by
  obtain ⟨h, w⟩ := c
  simp [rasterCells]

/-- Where every cell holds a value, the overlay is the writes of the inside cells in raster order
(42_yuv_plane_compositor.md R156). -/
theorem overlayFrom_ok (s : State) (inside : Nat × Nat → Bool) (cells : List (Nat × Nat))
    (h : ∀ c ∈ cells, s.maskCell (c.1 * s.diam.toNat + c.2) = some (inside c)) :
    overlayFrom s cells = .ok ((cells.filter inside).flatMap s.cellWrites) := by
  induction cells with
  | nil => rfl
  | cons c rest ih =>
    obtain ⟨a, b⟩ := c
    have hc := h (a, b) (List.mem_cons_self ..)
    simp only at hc
    simp only [overlayFrom, hc, ih (fun d hd => h d (List.mem_cons_of_mem _ hd))]
    by_cases hi : inside (a, b) = true
    · simp [hi]
    · simp [hi]

/-- Where some cell holds no value, the overlay names such a cell (10_state.md R32). -/
theorem overlayFrom_error (s : State) (cells : List (Nat × Nat))
    (h : ∃ c ∈ cells, s.maskCell (c.1 * s.diam.toNat + c.2) = none) :
    ∃ cell, overlayFrom s cells = .error (.maskNoValue cell) := by
  induction cells with
  | nil => simp at h
  | cons c rest ih =>
    obtain ⟨a, b⟩ := c
    unfold overlayFrom
    cases hm : s.maskCell (a * s.diam.toNat + b) with
    | none => exact ⟨_, rfl⟩
    | some inside =>
      obtain ⟨c, hc, hnone⟩ := h
      rcases List.mem_cons.1 hc with rfl | hc
      · simp [hm] at hnone
      · obtain ⟨cell, he⟩ := ih ⟨c, hc, hnone⟩
        exact ⟨cell, by simp [he]⟩

end Sys2Proof.Machine
end

