-- ==== Sys2Proof/Laws/Decode.lean ====
section
/-! SUPPORT. What the decoder does with each opcode (30_encoding.md R74), so that no later proof walks its chain of
tests. -/

namespace Sys2Proof

section
variable {d : Descriptor}

theorem decode_negotiate (h : d.opc = opNegotiate) : decode d = decodeNegotiate d := by
  unfold decode; rw [h]; rfl

theorem decode_frame (h : d.opc = opFrame) : decode d = decodeFrame d := by
  unfold decode; rw [h]; rfl

theorem decode_eos (h : d.opc = opEos) : decode d = decodeEos d := by
  unfold decode; rw [h]; rfl

theorem decode_convert (h : d.opc = opConvert) : decode d = decodeConvert d := by
  unfold decode; rw [h]; rfl

theorem decode_wrctrl (h : d.opc = opWrctrl) : decode d = decodeWrctrl d := by
  unfold decode; rw [h]; rfl

theorem decode_rdreg (h : d.opc = opRdreg) : decode d = decodeRdreg d := by
  unfold decode; rw [h]; rfl

theorem decode_rdmask (h : d.opc = opRdmask) : decode d = decodeRdmask d := by
  unfold decode; rw [h]; rfl

end

/-- Every descriptor has one of the seven opcodes or is refused as reserved (30_encoding.md R74). -/
theorem decode_cases (d : Descriptor) :
    (d.opc = opNegotiate ∧ decode d = decodeNegotiate d) ∨ (d.opc = opFrame ∧ decode d = decodeFrame d) ∨
    (d.opc = opEos ∧ decode d = decodeEos d) ∨ (d.opc = opConvert ∧ decode d = decodeConvert d) ∨
    (d.opc = opWrctrl ∧ decode d = decodeWrctrl d) ∨ (d.opc = opRdreg ∧ decode d = decodeRdreg d) ∨
    (d.opc = opRdmask ∧ decode d = decodeRdmask d) ∨
    ((∀ op ∈ [opNegotiate, opFrame, opEos, opConvert, opWrctrl, opRdreg, opRdmask], d.opc ≠ op) ∧
      decode d = .error (.reservedOpcode d.opc)) := by
  by_cases h1 : d.opc = opNegotiate
  · exact .inl ⟨h1, decode_negotiate h1⟩
  by_cases h2 : d.opc = opFrame
  · exact .inr (.inl ⟨h2, decode_frame h2⟩)
  by_cases h3 : d.opc = opEos
  · exact .inr (.inr (.inl ⟨h3, decode_eos h3⟩))
  by_cases h4 : d.opc = opConvert
  · exact .inr (.inr (.inr (.inl ⟨h4, decode_convert h4⟩)))
  by_cases h5 : d.opc = opWrctrl
  · exact .inr (.inr (.inr (.inr (.inl ⟨h5, decode_wrctrl h5⟩))))
  by_cases h6 : d.opc = opRdreg
  · exact .inr (.inr (.inr (.inr (.inr (.inl ⟨h6, decode_rdreg h6⟩)))))
  by_cases h7 : d.opc = opRdmask
  · exact .inr (.inr (.inr (.inr (.inr (.inr (.inl ⟨h7, decode_rdmask h7⟩))))))
  · refine .inr (.inr (.inr (.inr (.inr (.inr (.inr ⟨by simp [h1, h2, h3, h4, h5, h6, h7], ?_⟩))))))
    unfold decode
    rw [if_neg h1, if_neg h2, if_neg h3, if_neg h4, if_neg h5, if_neg h6, if_neg h7]

/-- Two descriptors with the same words are the same. -/
theorem Descriptor.ext_words {d e : Descriptor} (h0 : d.w0 = e.w0) (h1 : d.w1 = e.w1) (h2 : d.w2 = e.w2)
    (h3 : d.w3 = e.w3) : d = e := by
  cases d; cases e; simp_all

/-- A word whose bits above the opcode are zero. -/
theorem Descriptor.w0_of_opc {d : Descriptor} {op : Byte} (h : d.opc = op) (hz : d.w0.extractLsb' 8 24 = 0) :
    (0 : BitVec 24) ++ op = d.w0 := by
  rw [← hz, ← h]
  exact (append_extract d.w0 0 24 8).trans (extract_whole _)

end Sys2Proof
end

