-- ==== Sys2Proof/Laws/PerInstr.lean ====
section
/-! SUPPORT. Statements for every instruction, made per constructor. The family OpcodeByte: the first byte of an
instruction's encoding is its opcode (30_encoding.md R72, R74), which is what the response echoes (R78). -/

namespace Sys2Proof.Laws.OpcodeByte

open Sys2Proof

/-- The low byte of a word that ends in an opcode. -/
theorem low_byte (x : BitVec 24) (op : Byte) : (x ++ op).extractLsb' 0 8 = op := by
  apply BitVec.eq_of_getLsbD_eq
  intro i hi
  simp only [BitVec.getLsbD_extractLsb', BitVec.getLsbD_append, Nat.zero_add, hi, decide_true, Bool.true_and, if_true]

/-- The first byte of the encoding is the opcode. -/
def Statement (i : Instr) : Prop := (encode i).opc = i.opcode

theorem negotiate (w h : BitVec 16) (num den : BitVec 32) : Statement (.negotiate w h num den) :=
  low_byte 0 opNegotiate

theorem frame (len : BitVec 64) (wr : Bool) : Statement (.frame len wr) :=
  low_byte ((0 : BitVec 23) ++ BitVec.ofBool wr) opFrame

theorem eos : Statement .eos := low_byte 0 opEos

theorem convert (r g b : Byte) (std : Standard) (rng : Range) : Statement (.convert r g b std rng) :=
  low_byte ((0 : BitVec 21) ++ rng.bit ++ std.bits) opConvert

theorem wrctrl (value : BitVec 5) : Statement (.wrctrl value) := low_byte 0 opWrctrl

theorem rdreg (idx : Byte) : Statement (.rdreg idx) := low_byte ((0 : BitVec 16) ++ idx) opRdreg

theorem rdmask (cell : BitVec 32) : Statement (.rdmask cell) := low_byte 0 opRdmask

end Sys2Proof.Laws.OpcodeByte
end

