-- ==== Sys2Proof/Laws/Raster.lean ====
section
/-! SUPPORT. The mask list cell by cell: its length and what its cell h * D + w holds (10_state.md R32,
40_disc_rasterizer.md R103). -/

namespace Sys2Proof.Machine

/-- The element of a list of rows of equal length. -/
theorem getElem?_flatMap_rows {α : Type} (f : Nat → List α) (d : Nat) (hf : ∀ h, (f h).length = d)
    (n h w : Nat) (hh : h < n) (hw : w < d) :
    ((List.range n).flatMap f)[h * d + w]? = (f h)[w]? := by
  induction n generalizing h with
  | zero => omega
  | succ n ih =>
    have hlen : ((List.range n).flatMap f).length = n * d := by
      clear ih hh
      induction n with
      | zero => simp
      | succ n ih => rw [List.range_succ, List.flatMap_append]; simp [ih, hf, Nat.succ_mul]
    rw [List.range_succ, List.flatMap_append]
    by_cases hlt : h < n
    · have : h * d + w < n * d := by
        have := Nat.mul_le_mul_right d (show h + 1 ≤ n by omega)
        rw [Nat.succ_mul] at this
        omega
      rw [List.getElem?_append_left (by omega), ih h hlt]
    · have : h = n := by omega
      subst this
      rw [List.getElem?_append_right (by omega), hlen]
      simp

@[simp] theorem rasterCells_length (d : Nat) : (rasterCells d).length = d * d := by
  simp [rasterCells, List.length_flatMap, List.map_const']

/-- Cell h * D + w of the raster order is row h, column w. -/
theorem rasterCells_getElem? {d h w : Nat} (hh : h < d) (hw : w < d) :
    (rasterCells d)[h * d + w]? = some (h, w) := by
  unfold rasterCells
  rw [getElem?_flatMap_rows _ d (by simp) d h w hh hw]
  simp [hw]

@[simp] theorem rasterize_length (d : Nat) : (rasterize d).length = d * d := by simp [rasterize]

/-- What cell h * D + w of the mask holds. -/
theorem rasterize_getElem? {d h w : Nat} (hh : h < d) (hw : w < d) :
    (rasterize d)[h * d + w]? = some (rasterValue (d / 2) (h, w)) := by
  simp [rasterize, rasterCells_getElem? hh hw]

end Sys2Proof.Machine
end

