-- ==== Sys2Proof/Tests/Slice0.lean ====
section
/-! SUPPORT. Named tests, their expected results taken from spec/95_test_vectors.md (the section stands at each), and for
every obligation with hypotheses a witness: a concrete state and operands that meet them all. -/

namespace Sys2Proof.Tests

open Sys2Proof Sys2Proof.Machine

/-! ### Small states -/

/-- The state that `NEGOTIATE 64, 64, 4/1` leaves after reset, but for its response (95 section 3, P4). -/
def small : State := State.reset.install 64 64 4 0xFF554C

/-- `small` before the frame that draws: COUNTER 3, so that the next frame has phase 0 (95 section 3, P4 line 5). -/
def due : State := { small with counter := 3 }

/-- What a result holds of its next state. -/
def gives {α : Type} (f : State → α) : Result → Option α
  | .next t => some (f t)
  | .fault _ => none
  | .refused _ => none

/-- Why a result has no next state. -/
def stops : Result → Option (Fault ⊕ Refusal)
  | .next _ => none
  | .fault f => some (.inl f)
  | .refused r => some (.inr r)

/-- Why the decoder refuses. -/
def refusal {α : Type} : Except DecodeError α → Option DecodeError
  | .ok _ => none
  | .error e => some e

/-- The response a result gives, as r0 and r1 of its descriptor. -/
def answer (r : Result) : Option (Word × Word) :=
  (gives (fun t => t.rsp.map fun x => (x.descriptor.w0, x.descriptor.w1)) r).join

/-- `s` with one descriptor on its way. -/
def sending (s : State) (d : Descriptor) : State := { s with host := [.send d.bytes []] }

/-- What stands at an address of frame space afterwards. -/
def byteAfter (r : Result) (a : Nat) : Option Byte := (gives (fun t => t.frame.read a) r).join

/-! ### WellFormed: the one check, and a term it refuses (30_encoding.md R82, R86 (c)) -/

theorem test_wellFormed_refuses_reserved_standard : (Instr.wrctrl 0x0E).wellFormed = false := by decide

theorem test_wellFormed_accepts_fcc : (Instr.wrctrl 0x09).wellFormed = true := by decide

/-! ### Decode: words written out by hand from 30_encoding.md R75 to R84 (95 sections 2.2 to 2.7) -/

theorem test_decode_negotiate_negative_rate :
    (decode ⟨0x00000001, 0x01E00280, 0xFFFFFFE2, 0x00000001⟩).toOption = some (.negotiate 640 480 (-30) 1) := by decide

theorem test_decode_frame_not_writable :
    (decode ⟨0x00000002, 0x00001800, 0x00000000, 0x00000000⟩).toOption = some (.frame 6144 false) := by decide

theorem test_decode_frame_high_length :
    (decode ⟨0x00000102, 0x00000000, 0x00000001, 0x00000000⟩).toOption = some (.frame 4294967296 true) := by decide

theorem test_decode_eos : (decode ⟨0x00000003, 0, 0, 0⟩).toOption = some .eos := by decide

theorem test_decode_convert :
    (decode ⟨0x00000604, 0x0063C80C, 0, 0⟩).toOption = some (.convert 12 200 99 .fcc .studio) := by decide

theorem test_decode_wrctrl : (decode ⟨0x00000005, 0x00000016, 0, 0⟩).toOption = some (.wrctrl 0x16) := by decide

theorem test_decode_rdreg : (decode ⟨0x00000C06, 0, 0, 0⟩).toOption = some (.rdreg 12) := by decide

theorem test_decode_rdmask : (decode ⟨0x00000007, 0x003FF000, 0, 0⟩).toOption = some (.rdmask 4190208) := by decide

/-- Reserved opcodes (95 section 2.7). -/
theorem test_decode_reserved_opcodes :
    refusal (decode ⟨0x00000000, 0, 0, 0⟩) = some (.reservedOpcode 0x00) ∧
    refusal (decode ⟨0x00000008, 0, 0, 0⟩) = some (.reservedOpcode 0x08) ∧
    refusal (decode ⟨0xFFFFFFFF, 0xFFFFFFFF, 0xFFFFFFFF, 0xFFFFFFFF⟩) = some (.reservedOpcode 0xFF) := by decide

/-- Must-be-zero bits (95 sections 2.2, 2.5, 2.6). -/
theorem test_decode_must_be_zero :
    refusal (decode ⟨0x00000101, 0x01E00280, 0x0000001E, 0x00000001⟩) = some (.mustBeZero 0x01) ∧
    refusal (decode ⟨0x00000102, 0x00001800, 0x00000000, 0x00000001⟩) = some (.mustBeZero 0x02) ∧
    refusal (decode ⟨0x00000202, 0x00001800, 0, 0⟩) = some (.mustBeZero 0x02) ∧
    refusal (decode ⟨0x00000003, 0x00000001, 0, 0⟩) = some (.mustBeZero 0x03) ∧
    refusal (decode ⟨0x00000804, 0, 0, 0⟩) = some (.mustBeZero 0x04) ∧
    refusal (decode ⟨0x00000005, 0x00000022, 0, 0⟩) = some (.mustBeZero 0x05) ∧
    refusal (decode ⟨0x00010006, 0, 0, 0⟩) = some (.mustBeZero 0x06) ∧
    refusal (decode ⟨0x00000007, 0, 1, 0⟩) = some (.mustBeZero 0x07) := by decide

/-- The reserved STD (30_encoding.md R86 (c); 95 section 2.6). -/
theorem test_decode_reserved_standard :
    refusal (decode ⟨0x00000304, 0, 0, 0⟩) = some (.reservedStandard 0x04) ∧
    refusal (decode ⟨0x00000005, 0x0000000E, 0, 0⟩) = some (.reservedStandard 0x05) := by decide

/-- On a byte path the first byte is w0[7:0] (30_encoding.md R71); fifteen bytes are no command (R70). -/
theorem test_decode_bytes :
    (decodeBytes [0x02, 0x01, 0, 0, 0x00, 0x18, 0, 0, 0, 0, 0, 0, 0, 0, 0, 0, 0x03]).toOption = some (.frame 6144 true, [0x03]) ∧
    refusal (decodeBytes [0x03, 0, 0, 0, 0, 0, 0, 0, 0, 0, 0, 0, 0, 0, 0]) = some .incomplete := by decide

theorem test_decodeTableWord : decodeTableWord 128 0x0000000100000001_0040004000000001 =
    some (.negotiate 64 64 1 1) ∧ decodeTableWord 32 0x00000D06 = some (.rdreg 13) ∧
    decodeTableWord 128 8 = none := by decide

/-! ### The step and the instructions -/

/-- The first step after reset runs the placed command, here `NEGOTIATE 64, 64, 4/1` (95 section 3, P4 line 2). -/
theorem test_step_runs_placed_word :
    answer (step (State.reset.withFetchWord 128 0x00000001000000040040004000000001)) =
      some (0x01000100, 0) := by decide

/-- 95 section 2.1, the row 64 x 64, and the end state of P4. -/
theorem test_negotiate_registers :
    gives (fun t => [t.status.toNat, t.width.toNat, t.height.toNat, t.fps.toNat, t.diam.toNat,
        t.radius.toNat, t.loff.toNat, t.uoff.toNat, t.voff.toNat, t.color.toNat, t.minlen.toNat])
      (exec (.negotiate 64 64 4 1) State.reset) =
      some [1, 64, 64, 4, 2, 1, 130, 5153, 4129, 0xFF554C, 6144] := by decide

/-- 95 section 3, P5: MASK_CAP = 400 turns 672 x 480 away and releases. -/
theorem test_negotiate_out_of_memory :
    gives (fun t => (t.status, t.mask, t.rsp.map (·.st)))
      (exec (.negotiate 672 480 30 1) { small with cfg := ⟨400⟩ }) =
      some (0, [], some .errNomem) := by decide

/-- The masks of 95 section 2.3 for D = 2, 3, 4, 5. -/
theorem test_masks :
    (rasterize 2).map Bool.toNat = [0, 0, 0, 1] ∧
    (rasterize 3).map Bool.toNat = [0, 0, 0, 0, 1, 0, 0, 0, 0] ∧
    (rasterize 4).map Bool.toNat = [0, 0, 0, 0, 0, 1, 1, 1, 0, 1, 1, 1, 0, 1, 1, 1] ∧
    (rasterize 5).map Bool.toNat =
      [0, 0, 0, 0, 0, 0, 1, 1, 1, 0, 0, 1, 1, 1, 0, 0, 1, 1, 1, 0, 0, 0, 0, 0, 0] := by decide

/-- 95 section 3, P1 line 3: the 27 writes of 128 x 64 begin 645, 10370, 8322, 646, 10371, 8323. -/
theorem test_frame_write_order :
    ((State.reset.install 128 64 2 0xFF554C).discWrites.map (·.1)).take 6 =
      [645, 10370, 8322, 646, 10371, 8323] ∧
    (State.reset.install 128 64 2 0xFF554C).discWrites.length = 27 := by decide

/-- 95 section 3, P4 line 5: c = 4 draws 195 <- 4C, 4129 <- FF, 5153 <- 55 and leaves the byte beside them. -/
theorem test_frame_draws :
    answer (exec (.frame 6144 true) due) = some (0x02000300, 4) ∧
    gives (fun t => t.frame) (exec (.frame 6144 true) { due with frame := [(195, 0x10), (196, 0x10)] }) =
      some [(195, 0x4C), (196, 0x10), (4129, 0xFF), (5153, 0x55)] := by decide

/-- 95 section 2.5: at COUNTER = 0xFFFFFFFF the next frame has c = 0 and phase 0. -/
theorem test_frame_counter_wraps :
    answer (exec (.frame 6144 true) { small with counter := 0xFFFFFFFF }) = some (0x02000300, 0) := by decide

/-- 95 section 2.6: EOS keeps COUNTER and CTRL. -/
theorem test_eos :
    gives (fun t => (t.status, t.minlen, t.counter, t.ctrl)) (exec .eos due) = some (0, 0, 3, 0x02) ∧
    answer (exec .eos due) = some (0x03000100, 0) := by decide

/-- 95 section 2.4 and section 1 E3: red under BT601 Full is (76, 85, 255). -/
theorem test_convert : answer (exec (.convert 255 0 0 .bt601 .full) State.reset) =
    some (0x04000000, 0x00FF554C) := by decide

/-- 95 section 3, P3 line 4: red under BT709 Studio is (63, 102, 240). -/
theorem test_convert_studio : answer (exec (.convert 255 0 0 .bt709 .studio) State.reset) =
    some (0x04000000, 0x00F0663F) := by decide

/-- 95 section 2.6: `WRCTRL 0, 1, BT709, STUDIO` gives CTRL = 0x16. -/
theorem test_wrctrl : gives (·.ctrl) (exec (.wrctrl 0x16) State.reset) = some 0x16 ∧
    answer (exec (.wrctrl 0x16) State.reset) = some (0x05000000, 0) := by decide

/-- 95 section 2.6: `RAW 5, 0x0E, 0, 0` answers ERR_ILLEGAL and leaves CTRL. -/
theorem test_wrctrl_reserved : answer (step (sending State.reset ⟨5, 0x0E, 0, 0⟩)) = some (0x05000001, 0) ∧
    gives (·.ctrl) (step (sending State.reset ⟨5, 0x0E, 0, 0⟩)) = some 0x02 := by decide

/-- 95 section 2.6: RDREG CTRL after reset is 2; RDREG 13 is ERR_RANGE. -/
theorem test_rdreg : answer (exec (.rdreg 0) State.reset) = some (0x06000000, 2) ∧
    answer (exec (.rdreg 13) State.reset) = some (0x06000007, 0) := by decide

/-- 95 section 2.1: RDREG MINLEN of 65535 x 65535 is 0x17FFD0001: the 33rd bit is in r2. -/
theorem test_rdreg_wide :
    (gives (fun t => t.rsp.map fun r => (r.descriptor.w1, r.descriptor.w2))
      (exec (.rdreg 12) { State.reset with minlen := BitVec.ofNat 33 (leastLength 65535 65535) })) =
      some (some (0x7FFD0001, 0x00000001)) := by decide

/-- 95 section 2.6: RDMASK without configuration; section 2.3: the last cell of D = 2 is set, cell 4 is outside. -/
theorem test_rdmask : answer (exec (.rdmask 0) State.reset) = some (0x07000007, 0) ∧
    answer (exec (.rdmask 3) small) = some (0x07000000, 1) ∧
    answer (exec (.rdmask 4) small) = some (0x07000007, 0) := by decide

/-- The numbers of ST (60_exceptions.md R200) and of REASON (42_yuv_plane_compositor.md R155). -/
theorem test_status_and_reason_numbers :
    [Status.ok, .errIllegal, .errDim, .errFraction, .errRate, .errNomem, .errGeometry, .errRange].map Status.code =
      [0, 1, 2, 3, 4, 5, 6, 7] ∧
    [Reason.noReason, .unconfigured, .notWritable, .short, .showOff, .hidden].map Reason.code =
      [0, 1, 2, 3, 4, 5] := by decide

/-- 95 section 2.7: an illegal descriptor echoes its opcode byte. -/
theorem test_illegal_echo : answer (step (sending State.reset ⟨0xFF, 0, 0, 0⟩)) = some (0xFF000001, 0) := by decide

/-- 95 section 2.6: `RAW 3, 1, 0, 0` releases nothing. -/
theorem test_illegal_releases_nothing :
    gives (·.status) (step (sending small ⟨3, 1, 0, 0⟩)) = some 1 := by decide

/-- 10_state.md R36 and 70_reset_and_hazards.md R220: applying reset to a configured block. -/
theorem test_reset_input :
    gives (fun t => (t.ctrl, t.status, t.counter)) (step { due with ctrl := 0, host := [.reset] }) =
      some (0x02, 0, 0) := by decide

/-- Frame space: writing in the middle keeps the addresses rising; writing again replaces. -/
theorem test_memory_write :
    Memory.write [(1, 7), (5, 9)] 3 8 = [(1, 7), (3, 8), (5, 9)] ∧
    Memory.write [(1, 7), (5, 9)] 5 8 = [(1, 7), (5, 8)] ∧
    Memory.read [(1, 7), (5, 9)] 4 = none := by decide

/-! ### The assembler (30_encoding.md R88, R89; 95 sections 2.3, 2.4, 2.6) -/

theorem test_assembler_words :
    (AsmLine.wrctrl 0 1 .bt709 .studio).assemble = some ⟨0x00000005, 0x00000016, 0, 0⟩ ∧
    (AsmLine.convertRed .bt601 .full).assemble = some ⟨0x00000004, 0x000000FF, 0, 0⟩ ∧
    (AsmLine.rdmaskAt 20 4 3).assemble = some ⟨0x00000007, 83, 0, 0⟩ ∧
    (AsmLine.negotiate 640 480 30 (-1)).assemble =
      some ⟨0x00000001, 0x01E00280, 0x0000001E, 0xFFFFFFFF⟩ := by decide

theorem test_assembler_text :
    readLine ['R', 'D', 'R', 'E', 'G', ' ', 'L', 'O', 'F', 'F', ' ', ';', 'x'] = some (.rdreg 7) ∧
    readLine ['F', 'R', 'A', 'M', 'E', ' ', '0', 'x', '1', '8', ',', ' ', '1'] = some (.frame 24 1) := by decide

/-! ### Witnesses: concrete data that meets all hypotheses of each obligation -/

theorem reset_inv (cap : Nat) : State.Inv { State.reset with cfg := ⟨cap⟩ } where
  ctrl_legal := show LegalCtrl State.reset.ctrl by decide
  port_short := show State.reset.port.length < 16 by decide
  frame_wf := show State.reset.frame.wf = true by decide
  host_wf := by intro move h; cases h
  released := fun _ => ⟨rfl, rfl, rfl, rfl, rfl, rfl, rfl, rfl, rfl, rfl, rfl⟩
  configured := fun h => absurd (show State.reset.valid = true from h) (by decide)

theorem disc_two : HoldsDisc (rasterize 2) 2 1 := ⟨by decide, by decide⟩

theorem small_configured : small.Configured :=
  ⟨by decide, by decide, by decide, by decide, by decide, by decide, by decide, by decide, by decide, by decide,
    by decide, by decide, disc_two, .bt601, .full, by decide⟩

/-- A configured state meets the invariant: StepKeepsTheInvariant, CommandsAnswerUnderInv, EveryWriteIsInsideTheFrame,
FrameAlwaysCountsAndForwards. -/
theorem small_inv : small.Inv where
  ctrl_legal := by decide
  port_short := by decide
  frame_wf := by decide
  host_wf := by intro move h; cases h
  released := fun h => absurd h (by decide)
  configured := fun _ => small_configured

/-- `small` with any COUNTER meets the invariant; `due` is one of these. -/
theorem counted_inv (c : BitVec 32) : State.Inv { small with counter := c } where
  ctrl_legal := small_inv.ctrl_legal
  port_short := small_inv.port_short
  frame_wf := small_inv.frame_wf
  host_wf := small_inv.host_wf
  released := small_inv.released
  configured := fun _ => small_configured

theorem due_inv : due.Inv := counted_inv 3

theorem witness_idle : State.reset.host = [] ∧ gives id (step State.reset) = some State.reset := by decide

theorem witness_reset_input :
    ({ due with host := [.reset, .reset] } : State).host = .reset :: [.reset] := by decide

/-- StepKeepsTheInvariant on a step that runs a command: a drawing FRAME. -/
theorem witness_step_keeps :
    ({ due with host := [.send (encodeBytes (.frame 6144 true)) []] } : State).Inv ∧
    (gives (·.counter) (step { due with host := [.send (encodeBytes (.frame 6144 true)) []] })) = some 4 :=
  ⟨{ ctrl_legal := by decide, port_short := by decide, frame_wf := by decide, host_wf := by decide,
     released := fun h => absurd h (by decide), configured := fun _ => small_configured }, by decide⟩

/-- StepAnswersUnlessTheHostOverruns: both outcomes, the second with one byte too many. -/
theorem witness_overrun :
    stops (step { State.reset with host := [.send (List.replicate 17 0) []] }) = some (.inr .commandBeforeResponse) ∧
    answer (step { State.reset with host := [.send (List.replicate 16 0) []] }) = some (0x00000001, 0) := by decide

/-- StepRunsTheDecodedCommand, on a descriptor that arrives in two parts. -/
theorem witness_step_runs :
    ([3, 0, 0, 0, 0, 0, 0, 0, 0, 0, 0, 0, 0, 0, 0] ++ [0] : List Byte) = (⟨3, 0, 0, 0⟩ : Descriptor).bytes ∧
    (decode ⟨3, 0, 0, 0⟩).toOption = some .eos := by decide

/-- IllegalDescriptorChangesNothing: a set bit, a reserved opcode, the reserved STD. -/
theorem witness_illegal : (⟨3, 1, 0, 0⟩ : Descriptor).legal = false ∧ (⟨8, 0, 0, 0⟩ : Descriptor).legal = false ∧
    (⟨5, 0x0E, 0, 0⟩ : Descriptor).legal = false := by decide

/-- PartialDescriptorWaits at its boundary of fifteen bytes. -/
theorem witness_partial : (([3] : List Byte) ++ List.replicate 14 0).length < 16 ∧
    gives (fun t => (t.port.length, t.rsp)) (step { small with port := [3], host := [.send (List.replicate 14 0) []] }) =
      some (15, none) := by decide

theorem witness_decode : (decode (encode (.wrctrl 0x1B))).toOption = some (.wrctrl 0x1B) ∧
    (Instr.wrctrl 0x1B).wellFormed = true ∧
    (encode (.convert 1 2 3 .bt709 .studio)).legal = true := by decide

/-- The least legal format is accepted (95 section 2.2). -/
theorem accepted_least : AcceptedFormat State.reset.cfg.maskCap (64 : BitVec 16).toNat (64 : BitVec 16).toNat
    (1 : BitVec 32).toInt (1 : BitVec 32).toInt :=
  ⟨by decide, by decide, by decide, by decide, by decide, by decide⟩

/-- 2048 x 127, the least height at that width, is accepted (95 section 2.1). -/
theorem accepted_wide : AcceptedFormat State.reset.cfg.maskCap (2048 : BitVec 16).toNat (127 : BitVec 16).toNat
    (30 : BitVec 32).toInt (1 : BitVec 32).toInt :=
  ⟨by decide, by decide, by decide, by decide, by decide, by decide⟩

/-- With MASK_CAP = 400 the 400 cells of 640 x 480 fit (95 section 2.2). -/
theorem accepted_full_mask : AcceptedFormat 400 640 480 30 1 :=
  ⟨by decide, by decide, by decide, by decide, by decide, by decide⟩

/-- The largest format is accepted (95 section 2.1). -/
theorem accepted_largest : AcceptedFormat State.reset.cfg.maskCap 65535 65535 2147483647 2147483647 :=
  ⟨by decide, by decide, by decide, by decide, by decide, by decide⟩

/-- The obligations over accepted formats: CTRL of reset is legal and names a standard. -/
theorem witness_negotiate : LegalCtrl State.reset.ctrl ∧ State.reset.standard = some .bt601 ∧
    (gives (·.valid) (exec (.negotiate 64 64 1 1) State.reset)) = some true := by decide

/-- MaskDependsOnTheWidthBlockOnly: 64 and 95 are one block. -/
theorem witness_same_block : AcceptedFormat 4190209 64 64 1 1 ∧ AcceptedFormat 4190209 95 64 1 1 ∧ 64 / 32 = 95 / 32 :=
  ⟨⟨by decide, by decide, by decide, by decide, by decide, by decide⟩,
    ⟨by decide, by decide, by decide, by decide, by decide, by decide⟩, by decide⟩

/-- NegotiateRejectsInOrder: each of its five clauses at a boundary, on a configured block (95 section 2.2). -/
theorem witness_rejects :
    answer (exec (.negotiate 63 480 30 1) small) = some (0x01000002, 0) ∧
    answer (exec (.negotiate 640 63 30 1) small) = some (0x01000002, 0) ∧
    answer (exec (.negotiate 640 480 0 0) small) = some (0x01000003, 0) ∧
    answer (exec (.negotiate 640 480 999 1000) small) = some (0x01000004, 0) ∧
    answer (exec (.negotiate 672 480 30 1) { small with cfg := ⟨400⟩ }) = some (0x01000005, 0) ∧
    answer (exec (.negotiate 2048 126 30 1) small) = some (0x01000006, 0) := by decide

/-- The hypotheses of those clauses: 2048 x 126 falls short by 64 bytes, 672 by 41 cells. -/
theorem witness_rejects_hypotheses :
    (3 * 2048 * 126) / 2 < footEnd 2048 126 ∧ 64 * 64 ≤ State.reset.cfg.maskCap ∧ 400 < (672 / 32) * (672 / 32) ∧
    ((999 : BitVec 32).toInt < (1000 : BitVec 32).toInt) ∧ (0 : BitVec 32).toInt ≤ 0 := by decide

/-- FootprintPassesExactlyForTallFormats on both sides of its boundary, and at W = 1055. -/
theorem witness_footprint : footEnd 2048 127 ≤ (3 * 2048 * 127) / 2 ∧ ¬ footEnd 2048 126 ≤ (3 * 2048 * 126) / 2 ∧
    footEnd 1055 64 ≤ (3 * 1055 * 64) / 2 := by decide

/-- GeometryFitsItsRegisters at the top of its range: bit 32 of UOFF is in use. -/
theorem witness_geometry : 2 ^ 32 ≤ uOffset 65535 65535 ∧ uOffset 65535 65535 < 2 ^ 33 := by decide

/-- MaskIsSymmetric: an even and an odd diameter; row 1 = 2R - 1 at the least diameter, row 2R - 1 of D = 5
(95 section 2.3). -/
theorem witness_symmetry : (rasterize 4)[3 * 4 + 1]? = (rasterize 4)[1 * 4 + 3]? ∧ 1 ≤ 1 ∧ 1 < 2 * (4 / 2) ∧
    3 % 2 = 1 ∧ (rasterize 3)[2 * 3 + 1]? = some false ∧
    1 ≤ 2 / 2 ∧ (rasterize 2)[1 * 2 + 1]? = some true ∧ (rasterize 5)[3 * 5 + 2]? = some true := by decide

/-- RenegotiationForgetsTheOldFormat: two states that agree on CTRL and MASK_CAP only. -/
theorem witness_forgets : small.ctrl = State.reset.ctrl ∧ small.cfg = State.reset.cfg ∧ small ≠ State.reset ∧
    gives (·.loff) (exec (.negotiate 96 64 25 1) small) = some 291 ∧
    gives (·.loff) (exec (.negotiate 96 64 25 1) State.reset) = some 291 := by decide

/-- ObservationCommandsChangeNothing: the three commands answer. -/
theorem witness_observation :
    gives (·.counter) (exec (.convert 1 2 3 .fcc .full) due) = some 3 ∧
    gives (·.counter) (exec (.rdreg 255) due) = some 3 ∧ gives (·.counter) (exec (.rdmask 0) due) = some 3 := by decide

/-- FramePassesThroughForTheFirstReason: each of its five clauses, the hypotheses and the answer (95 section 3, P4). -/
theorem witness_passes :
    (State.reset.valid = false ∧ answer (exec (.frame 0 false) State.reset) = some (0x02001100, 1)) ∧
    (small.valid = true ∧ answer (exec (.frame 0 false) small) = some (0x02002100, 1)) ∧
    ((6143 : BitVec 64).toNat < due.minlen.toNat ∧ answer (exec (.frame 6143 true) due) = some (0x02003100, 4)) ∧
    (due.minlen.toNat ≤ (6144 : BitVec 64).toNat ∧ ({ due with ctrl := 0 } : State).showOverlay = false ∧
      answer (exec (.frame 6144 true) { due with ctrl := 0 }) = some (0x02004100, 4)) ∧
    (small.showOverlay = true ∧ 1 ≤ small.fps.toNat ∧ ¬ (9 + 1) % 4 < 4 / 2 ∧
      answer (exec (.frame 6144 true) { small with counter := 9 }) = some (0x02005100, 10)) := by decide

/-- FrameDrawsTheDiscInRasterOrder, DrawnFrameShowsTheDisc, EveryWriteIsInsideTheFrame: their hypotheses in `due`. -/
theorem witness_draws : due.Inv ∧ due.valid = true ∧ due.minlen.toNat ≤ (6144 : BitVec 64).toNat ∧
    due.showOverlay = true ∧ (due.counter + 1).toNat % due.fps.toNat < due.fps.toNat / 2 ∧
    due.width.toNat % 2 = 0 ∧ due.height.toNat % 2 = 0 ∧ 2 * due.diam.toNat ≤ due.height.toNat ∧
    (1, 1) ∈ discCells due.diam.toNat due.radius.toNat :=
  ⟨due_inv, by decide, by decide, by decide, by decide, by decide, by decide, by decide, by decide⟩

/-- The three bytes of that frame (95 section 2.5, the row 64 x 64). -/
theorem witness_drawn_bytes :
    byteAfter (exec (.frame 6144 true) due) (due.lumaAddr 1 1) = some 0x4C ∧
    byteAfter (exec (.frame 6144 true) due) (due.uAddr 1 1) = some 0x55 ∧
    byteAfter (exec (.frame 6144 true) due) (due.vAddr 1 1) = some 0xFF ∧
    gives (fun t => t.rsp.map (·.drawn)) (exec (.frame 6144 true) due) = some (some true) := by decide

/-- PlanesContainTheBox at the last cell of the box, row and column D - 1 = 1. -/
theorem witness_planes : small.Configured ∧ 2 * small.diam.toNat ≤ small.height.toNat ∧ 1 < small.diam.toNat ∧
    small.lumaAddr 1 1 = 195 ∧ small.uAddr 1 1 = 5153 ∧ small.vAddr 1 1 = 4129 :=
  ⟨small_configured, by decide, by decide, by decide, by decide, by decide⟩

/-- OverlayWritesAreBounded: the writes of `small`. -/
theorem witness_writes :
    small.overlayWrites.toOption = some [(195, 0x4C), (5153, 0x55), (4129, 0xFF)] := by decide

/-- BlinkScheduleShape at both ends of the visible half of 30 (95 section 1, E4). -/
theorem witness_blink : visible 14 30 = true ∧ visible 15 30 = false ∧ visible 30 30 = true := by decide

/-- FrameKeepsEverythingElse, SilentHasNoEffectOnFrame, FrameNeverReadsFrameSpace: FRAME answers, drawn (195 is written,
196 is not) and not drawn. -/
theorem witness_frame_answers : gives (·.ctrl) (exec (.frame 6144 true) { due with ctrl := 3 }) = some 3 ∧
    gives (fun t => t.frame.read 195) (exec (.frame 6144 true) { due with frame := [(195, 1)] }) = some (some 0x4C) ∧
    gives (fun t => t.frame.read 196) (exec (.frame 6144 true) { due with frame := [(196, 1)] }) = some (some 1) ∧
    gives (fun t => t.frame.read 195) (exec (.frame 6143 true) { due with frame := [(195, 1)] }) = some (some 1) := by
  decide

/-- WrctrlWritesCtrlWhole: a value for each clause. -/
theorem witness_wrctrl : LegalCtrl 0x1B ∧ ¬ LegalCtrl 0x0C ∧ ¬ LegalCtrl 0x1F := by decide

/-- ColourIsSampledAtNegotiate: a value under which the next format turns BT709 Studio (95 section 3, P3), and one that
switches SHOW off; SHOW set in `due`, whose next frame has a visible phase and draws. -/
theorem witness_colour : LegalCtrl 0x16 ∧ Standard.bt709.bits = (0x16 : BitVec 5).extractLsb' 2 2 ∧
    LegalCtrl 0x00 ∧ (0x00 : BitVec 5).getLsbD 1 = false ∧
    gives (·.color) (exec (.negotiate 64 64 1 1) { small with ctrl := 0x16 }) = some 0xF0663F ∧
    (0x16 : BitVec 5).getLsbD 1 = true ∧ (due.counter + 1).toNat % due.fps.toNat < due.fps.toNat / 2 ∧
    answer (exec (.frame 6144 true) { due with ctrl := 0x16 }) = some (0x02000300, 4) := by decide

/-- RdregReadsTheRegisterMap: the last index with a register and the first without. -/
theorem witness_rdreg : ¬ 12 < (12 : Byte).toNat ∧ 12 < (13 : Byte).toNat ∧
    answer (exec (.rdreg 12) small) = some (0x06000000, 6144) := by decide

/-- RdmaskReadsTheDisc: unconfigured, the first cell outside, the last one inside. -/
theorem witness_rdmask : State.reset.valid = false ∧ small.diam.toNat * small.diam.toNat ≤ (4 : BitVec 32).toNat ∧
    small.valid = true ∧ (3 : BitVec 32).toNat < small.diam.toNat * small.diam.toNat := by decide

/-- The whole-machine rules: each command answers in `due`. -/
theorem witness_every_command :
    (gives (·.valid) (exec (.negotiate 64 64 1 1) due) = some true) ∧
    (gives (·.valid) (exec (.negotiate 63 64 1 1) due) = some false) ∧
    (gives (·.valid) (exec (.frame 0 false) due) = some true) ∧ (gives (·.valid) (exec .eos due) = some false) ∧
    (gives (·.valid) (exec (.convert 0 0 0 .fcc .studio) due) = some true) ∧
    (gives (·.valid) (exec (.wrctrl 0) due) = some true) ∧ (gives (·.valid) (exec (.rdreg 1) due) = some true) ∧
    (gives (·.valid) (exec (.rdmask 9) due) = some true) := by decide

/-- AssemblerProducesOnlyLegalCommands: lines that assemble; an operand out of range does not (30_encoding.md R88). -/
theorem witness_assembler : (AsmLine.negotiateFps 64 64 25).assemble = some ⟨1, 0x00400040, 25, 1⟩ ∧
    (AsmLine.rdreg 256).assemble = none := by decide

/-- StatesThatWouldStopNeverArise: a step from a state of the invariant to one whose mask holds exactly cells 0 to 3. -/
theorem witness_never_stops :
    ({ due with host := [.send (encodeBytes (.rdmask 3)) []] } : State).Inv ∧
    gives (fun t => (t.valid, (t.maskCell 3).isSome, (t.maskCell 4).isSome))
      (step { due with host := [.send (encodeBytes (.rdmask 3)) []] }) = some (true, true, false) :=
  ⟨{ ctrl_legal := by decide, port_short := by decide, frame_wf := by decide, host_wf := by decide,
     released := fun h => absurd h (by decide), configured := fun _ => small_configured }, by decide⟩

/-- Log entries 5, 6, 7: the faults' names, each in a state no run reaches. -/
theorem test_impossible_states_stop_by_name :
    stops (exec (.negotiate 64 64 1 1) { State.reset with ctrl := 0x0E }) = some (.inl .reservedStandard) ∧
    stops (exec (.rdmask 3) { small with mask := [false] }) = some (.inl (.maskNoValue 3)) ∧
    stops (exec (.frame 6144 true) { due with mask := [false] }) = some (.inl (.maskNoValue 1)) ∧
    ({ due with minlen := 0 } : State).overlayWrites.toOption = some [(195, 0x4C), (5153, 0x55), (4129, 0xFF)] ∧
    stops (exec (.frame 195 true) { due with minlen := 0 }) = some (.inl (.outsideFrame 195)) := by decide

end Sys2Proof.Tests
end

