-- ==== Sys2Proof/Proofs/GeometryBounds.lean ====
section
/-! The geometry grows with the format (40_disc_rasterizer.md R102, R104 to R108), so its values at 65535 x 65535 bound
it for every legal format (00_scope.md R10). -/

namespace Sys2Proof.Machine

/-! ### Monotonicity, one lemma per value -/

section
variable {w w' h h' : Nat}

theorem diameter_mono (hw : w ≤ w') : diameter w ≤ diameter w' := by
  unfold diameter
  exact Nat.div_le_div_right hw

theorem radius_mono (hw : w ≤ w') : radius w ≤ radius w' := by
  unfold radius
  exact Nat.div_le_div_right (diameter_mono hw)

theorem lumaOffset_mono (hw : w ≤ w') : lumaOffset w ≤ lumaOffset w' := by
  unfold lumaOffset
  exact Nat.add_le_add (Nat.mul_le_mul hw (diameter_mono hw)) (diameter_mono hw)

theorem uOffset_mono (hw : w ≤ w') (hh : h ≤ h') : uOffset w h ≤ uOffset w' h' := by
  unfold uOffset
  have luma := Nat.mul_le_mul hw hh
  have rows := Nat.mul_le_mul hw (radius_mono hw)
  have columns := radius_mono hw
  omega

theorem vOffset_mono (hw : w ≤ w') (hh : h ≤ h') : vOffset w h ≤ vOffset w' h' := by
  unfold vOffset
  have luma := Nat.mul_le_mul hw hh
  have rows := Nat.mul_le_mul hw (radius_mono hw)
  have columns := radius_mono hw
  omega

theorem leastLength_mono (hw : w ≤ w') (hh : h ≤ h') : leastLength w h ≤ leastLength w' h' := by
  unfold leastLength
  exact Nat.div_le_div_right (Nat.mul_le_mul (Nat.mul_le_mul_left 3 hw) hh)

theorem lumaLast_mono (hw : w ≤ w') : lumaLast w ≤ lumaLast w' := by
  unfold lumaLast
  have start := lumaOffset_mono hw
  have columns := Nat.sub_le_sub_right (diameter_mono hw) 1
  have rows := Nat.mul_le_mul columns hw
  omega

theorem chromaLast_mono (hw : w ≤ w') (hh : h ≤ h') : chromaLast w h ≤ chromaLast w' h' := by
  unfold chromaLast
  have start := uOffset_mono hw hh
  have columns := Nat.div_le_div_right (c := 2) (Nat.sub_le_sub_right (diameter_mono hw) 1)
  have rows := Nat.mul_le_mul columns (Nat.div_le_div_right (c := 2) hw)
  omega

theorem footEnd_mono (hw : w ≤ w') (hh : h ≤ h') : footEnd w h ≤ footEnd w' h' := by
  unfold footEnd
  have luma := lumaLast_mono hw
  have chroma := chromaLast_mono hw hh
  omega

end

/-! ### Each value fits its width: the registers of 10_state.md R27, R28 and R31, and ADDR_BITS for FOOT_END -/

section
variable {w h : Nat}

theorem diameter_lt (hw : w ≤ 65535) : diameter w < 2 ^ 11 :=
  Nat.lt_of_le_of_lt (diameter_mono hw) (by decide)

theorem radius_lt (hw : w ≤ 65535) : radius w < 2 ^ 10 :=
  Nat.lt_of_le_of_lt (radius_mono hw) (by decide)

theorem lumaOffset_lt (hw : w ≤ 65535) : lumaOffset w < 2 ^ 33 :=
  Nat.lt_of_le_of_lt (lumaOffset_mono hw) (by decide)

theorem uOffset_lt (hw : w ≤ 65535) (hh : h ≤ 65535) : uOffset w h < 2 ^ 33 :=
  Nat.lt_of_le_of_lt (uOffset_mono hw hh) (by decide)

theorem vOffset_lt (hw : w ≤ 65535) (hh : h ≤ 65535) : vOffset w h < 2 ^ 33 :=
  Nat.lt_of_le_of_lt (vOffset_mono hw hh) (by decide)

theorem leastLength_lt (hw : w ≤ 65535) (hh : h ≤ 65535) : leastLength w h < 2 ^ 33 :=
  Nat.lt_of_le_of_lt (leastLength_mono hw hh) (by decide)

theorem footEnd_lt (hw : w ≤ 65535) (hh : h ≤ 65535) : footEnd w h < 2 ^ 33 :=
  Nat.lt_of_le_of_lt (footEnd_mono hw hh) (by decide)

end

/-- Settles O20: every value is monotone in the format and fits its register at 65535 x 65535. -/
theorem geometryFitsItsRegisters : Obligations.GeometryFitsItsRegisters := by
  intro w h _ hw _ hh
  exact ⟨diameter_lt hw, radius_lt hw, lumaOffset_lt hw, uOffset_lt hw hh, vOffset_lt hw hh,
    leastLength_lt hw hh, footEnd_lt hw hh⟩

end Sys2Proof.Machine
end

