-- ==== Sys2Proof/Proofs/ExecEffect.lean ====
section
/-! What a command that answers does to the state, said once for all commands (10_state.md R23, the column "written
by"), and the two statements that follow from it alone. -/

namespace Sys2Proof.Machine

/-! ### The meaning of each command -/

section
variable (s : State)

theorem exec_negotiate (w h : BitVec 16) (num den : BitVec 32) :
    exec (.negotiate w h num den) s = execNegotiate w h num den s := rfl

theorem exec_frame (len : BitVec 64) (wr : Bool) : exec (.frame len wr) s = execFrame len wr s := rfl

theorem exec_eos : exec .eos s = execEos s := rfl

theorem exec_convert (r g b : Byte) (std : Standard) (rng : Range) :
    exec (.convert r g b std rng) s = execConvert r g b std rng s := rfl

theorem exec_wrctrl (value : BitVec 5) : exec (.wrctrl value) s = execWrctrl value s := rfl

theorem exec_rdreg (idx : Byte) : exec (.rdreg idx) s = execRdreg idx s := rfl

theorem exec_rdmask (cell : BitVec 32) : exec (.rdmask cell) s = execRdmask cell s := rfl

end

/-- `Effect s i u`: a command `i` that answers in `s` leaves the state `u`, but for the response port. The last
constructor is for the commands, and the refused WRCTRL, that change nothing (10_state.md R23). -/
inductive Effect (s : State) : Instr → State → Prop
  | rejected (w h : BitVec 16) (num den : BitVec 32) (code : Status)
      (failed : negotiateError s.cfg.maskCap w.toNat h.toNat (signed num) (signed den) = some code) :
      Effect s (.negotiate w h num den) s.release
  | installed (w h : BitVec 16) (num den : BitVec 32) (std : Standard)
      (accepted : AcceptedFormat s.cfg.maskCap w.toNat h.toNat (signed num) (signed den))
      (standard : s.standard = some std) :
      Effect s (.negotiate w h num den) (s.install w h (frameRate num den) (overlayColor std s.range))
  | passed (len : BitVec 64) (wr : Bool) : Effect s (.frame len wr) s.countFrame
  | drawn (len : BitVec 64) (wr : Bool) (frame : Memory)
      (composed : s.countFrame.composed len.toNat = .ok frame) :
      Effect s (.frame len wr) (s.countFrame.setFrame frame)
  | ended : Effect s .eos s.release
  | controlled (value : BitVec 5) (legal : LegalCtrl value) : Effect s (.wrctrl value) (s.writeCtrl value)
  | kept (i : Instr) (notFrame : ∀ len wr, i ≠ .frame len wr)
      (notNegotiate : ∀ w h num den, i ≠ .negotiate w h num den) (notEos : i ≠ .eos) : Effect s i s

/-- All a command that answers can do. -/
theorem exec_effect {i : Instr} {s t : State} (h : exec i s = .next t) :
    ∃ u r, Effect s i u ∧ t = { u with rsp := some r } := by
  cases i with
  | negotiate w h' num den =>
    rw [exec_negotiate] at h
    rcases execNegotiate_cases w h' num den s with ⟨code, failed, e⟩ | ⟨accepted, ⟨std, hstd, e⟩ | ⟨-, e⟩⟩
    · cases e.symm.trans h
      exact ⟨_, _, .rejected w h' num den code failed, rfl⟩
    · cases e.symm.trans h
      exact ⟨_, _, .installed w h' num den std accepted hstd, rfl⟩
    · cases e.symm.trans h
  | frame len wr =>
    rw [exec_frame] at h
    rcases execFrame_cases len wr s with ⟨reason, -, e⟩ | ⟨-, ⟨f, -, e⟩ | ⟨frame, composed, e⟩⟩
    · cases e.symm.trans h
      exact ⟨_, _, .passed len wr, rfl⟩
    · cases e.symm.trans h
    · cases e.symm.trans h
      exact ⟨_, _, .drawn len wr frame composed, rfl⟩
  | eos =>
    rw [exec_eos, execEos_eq] at h
    cases h
    exact ⟨_, _, .ended, rfl⟩
  | convert r g b std rng =>
    rw [exec_convert, execConvert_eq] at h
    cases h
    exact ⟨_, _, .kept _ nofun nofun nofun, rfl⟩
  | wrctrl value =>
    rw [exec_wrctrl] at h
    rcases execWrctrl_cases value s with ⟨legal, e⟩ | ⟨-, e⟩
    · cases e.symm.trans h
      exact ⟨_, _, .controlled value legal, rfl⟩
    · cases e.symm.trans h
      exact ⟨_, _, .kept _ nofun nofun nofun, rfl⟩
  | rdreg idx =>
    rw [exec_rdreg] at h
    rcases execRdreg_cases idx s with ⟨-, e⟩ | ⟨value, -, e⟩
    · cases e.symm.trans h
      exact ⟨_, _, .kept _ nofun nofun nofun, rfl⟩
    · cases e.symm.trans h
      exact ⟨_, _, .kept _ nofun nofun nofun, rfl⟩
  | rdmask cell =>
    rw [exec_rdmask] at h
    rcases execRdmask_cases cell s with ⟨-, e⟩ | ⟨-, -, ⟨-, e⟩ | ⟨inside, -, e⟩⟩
    · cases e.symm.trans h
      exact ⟨_, _, .kept _ nofun nofun nofun, rfl⟩
    · cases e.symm.trans h
    · cases e.symm.trans h
      exact ⟨_, _, .kept _ nofun nofun nofun, rfl⟩

/-- Settles O48: each effect of a command writes only what 10_state.md R23 gives it. -/
theorem stateIsWrittenOnlyByItsOwners : Obligations.StateIsWrittenOnlyByItsOwners := by
  intro i s t h
  obtain ⟨u, r, effect, rfl⟩ := exec_effect h
  cases effect with
  | rejected w height num den =>
    exact ⟨fun _ => ⟨rfl, rfl⟩, nofun, fun _ => rfl, fun other => absurd rfl (other w height num den), rfl, rfl, rfl⟩
  | installed w height num den =>
    exact ⟨fun _ => ⟨rfl, rfl⟩, nofun, fun _ => rfl, fun other => absurd rfl (other w height num den), rfl, rfl, rfl⟩
  | passed len wr =>
    exact ⟨fun other => absurd rfl (other len wr), fun _ _ _ => rfl, fun _ => rfl,
      fun _ _ => ⟨rfl, rfl, rfl, rfl, rfl, rfl, rfl, rfl, rfl, rfl, rfl, rfl⟩, rfl, rfl, rfl⟩
  | drawn len wr =>
    exact ⟨fun other => absurd rfl (other len wr), fun _ _ _ => rfl, fun _ => rfl,
      fun _ _ => ⟨rfl, rfl, rfl, rfl, rfl, rfl, rfl, rfl, rfl, rfl, rfl, rfl⟩, rfl, rfl, rfl⟩
  | ended =>
    exact ⟨fun _ => ⟨rfl, rfl⟩, nofun, fun _ => rfl, fun _ other => absurd rfl other, rfl, rfl, rfl⟩
  | controlled value =>
    exact ⟨fun _ => ⟨rfl, rfl⟩, nofun, fun other => absurd rfl (other value),
      fun _ _ => ⟨rfl, rfl, rfl, rfl, rfl, rfl, rfl, rfl, rfl, rfl, rfl, rfl⟩, rfl, rfl, rfl⟩
  | kept i notFrame =>
    exact ⟨fun _ => ⟨rfl, rfl⟩, fun len wr frame => absurd frame (notFrame len wr), fun _ => rfl,
      fun _ _ => ⟨rfl, rfl, rfl, rfl, rfl, rfl, rfl, rfl, rfl, rfl, rfl, rfl⟩, rfl, rfl, rfl⟩

/-- Settles O44: the two cases of WRCTRL, legal value and reserved STD. -/
theorem wrctrlWritesCtrlWhole : Obligations.WrctrlWritesCtrlWhole := by
  intro s value
  rw [exec_wrctrl]
  rcases execWrctrl_cases value s with ⟨legal, e⟩ | ⟨reserved, e⟩
  · exact ⟨fun _ => e, fun reserved => absurd legal reserved⟩
  · exact ⟨fun legal => absurd legal reserved, fun _ => e⟩

end Sys2Proof.Machine
end

