-- ==== Sys2Proof/Proofs/ConfiguredState.lean ====
section
/-! An accepted NEGOTIATE installs the configured state of 10_state.md R34: the mask is the disc in its closed form
(40_disc_rasterizer.md R113), the rate fits its range, and every geometry value fits its register. -/

namespace Sys2Proof.Machine

/-! ### The disc -/

/-- The disc test in the closed form of 40_disc_rasterizer.md R113. -/
def closedDisc (r : Nat) (cell : Nat × Nat) : Bool :=
  decide (((cell.2 : Int) - r) ^ 2 + ((cell.1 : Int) - r) ^ 2 < (r : Int) ^ 2)

theorem sq_eq_mul_self (x : Int) : x ^ 2 = x * x := by grind

/-- The closed form is the rasterizer's disc test, its squares written as powers. -/
theorem insideDisc_eq_closedDisc (r : Nat) (cell : Nat × Nat) :
    insideDisc r (centred r cell.2) (centred r cell.1) = closedDisc r cell := by
  refine decide_eq_decide.2 ?_
  rw [sq_eq_mul_self, sq_eq_mul_self, sq_eq_mul_self]
  exact Iff.rfl

/-- Row and column `n ≥ 2 R`, which the loops do not visit, hold no inside cell. -/
theorem sq_radius_le {r n : Nat} (h : 2 * r ≤ n) : (r : Int) ^ 2 ≤ ((n : Int) - r) ^ 2 := by
  rw [sq_eq_mul_self, sq_eq_mul_self]
  exact Int.mul_self_le_mul_self (by omega) (by omega)

/-- The rasterizer leaves the closed form in every cell, visited or not. -/
theorem rasterValue_eq_closedDisc (r : Nat) (cell : Nat × Nat) : rasterValue r cell = closedDisc r cell := by
  obtain ⟨h, w⟩ := cell
  have hrow : 0 ≤ ((h : Int) - r) ^ 2 := Int.sq_nonneg _
  have hcol : 0 ≤ ((w : Int) - r) ^ 2 := Int.sq_nonneg _
  by_cases hh : h < 2 * r
  · by_cases hw : w < 2 * r
    · rw [← insideDisc_eq_closedDisc]
      simp only [rasterValue, hh, hw, decide_true, Bool.true_and]
    · have := sq_radius_le (Nat.le_of_not_lt hw)
      simp only [rasterValue, closedDisc, hw, decide_false, Bool.and_false, Bool.false_and]
      exact (decide_eq_false (by omega)).symm
  · have := sq_radius_le (Nat.le_of_not_lt hh)
    simp only [rasterValue, closedDisc, hh, decide_false, Bool.false_and]
    exact (decide_eq_false (by omega)).symm

/-- The mask of diameter `d` holds the disc of radius `d / 2`. -/
theorem holdsDisc_rasterize (d : Nat) : HoldsDisc (rasterize d) d (d / 2) := by
  refine ⟨rasterize_length d, fun h hh w hw => ?_⟩
  rw [rasterize_getElem? hh hw, rasterValue_eq_closedDisc]
  rfl

/-! ### The rate -/

/-- With DEN at least 1 and NUM at least DEN, FPS is in the range of 10_state.md R26. -/
theorem frameRate_range {num den : BitVec 32} (hden : 1 ≤ signed den) (hnum : signed den ≤ signed num) :
    1 ≤ frameRate num den ∧ frameRate num den ≤ 2 ^ 31 - 1 := by
  have least : 1 ≤ signed num / signed den := Int.le_ediv_of_mul_le (by omega) (by omega)
  have largest : signed num / signed den ≤ signed num := Int.ediv_le_self _ (by omega)
  have width : signed num < 2 ^ 31 := BitVec.toInt_lt
  unfold frameRate
  omega

/-! ### The installed state -/

/-- What an accepted NEGOTIATE installs is the configured state. -/
theorem State.install_configured {s : State} {w h : BitVec 16} {num den : BitVec 32}
    (accepted : AcceptedFormat s.cfg.maskCap w.toNat h.toNat (signed num) (signed den))
    (std : Standard) (rng : Range) :
    (s.install w h (frameRate num den) (overlayColor std rng)).Configured := by
  obtain ⟨width_ok, height_ok, den_pos, rate_ok, mask_fits, foot_fits⟩ := accepted
  obtain ⟨rate_pos, rate_le⟩ := frameRate_range den_pos rate_ok
  have hw : w.toNat ≤ 65535 := by omega
  have hh : h.toNat ≤ 65535 := by omega
  have rate_lt : frameRate num den < 2 ^ 32 := by omega
  simp only [State.Configured, State.install_width, State.install_height, State.install_fps, State.install_diam,
    State.install_radius, State.install_loff, State.install_uoff, State.install_voff, State.install_minlen,
    State.install_mask, State.install_color, State.install_cfg,
    BitVec.toNat_ofNat, Nat.mod_eq_of_lt rate_lt, Nat.mod_eq_of_lt (diameter_lt hw),
    Nat.mod_eq_of_lt (radius_lt hw), Nat.mod_eq_of_lt (lumaOffset_lt hw), Nat.mod_eq_of_lt (uOffset_lt hw hh),
    Nat.mod_eq_of_lt (vOffset_lt hw hh), Nat.mod_eq_of_lt (leastLength_lt hw hh)]
  exact ⟨width_ok, height_ok, rate_pos, rate_le, rfl, rfl, mask_fits, rfl, rfl, rfl, rfl, foot_fits,
    holdsDisc_rasterize _, std, rng, rfl⟩

end Sys2Proof.Machine
end

