-- ==== Sys2Proof/Proofs/StepInvariant.lean ====
section
/-! The invariant of 10_state.md R24, R33 and R34: each named update of the state keeps it, so each effect of a command
does, and so each step does; and the state after reset has it. -/

namespace Sys2Proof.Machine

/-! ### The invariant under each update of the state -/

theorem State.release_released (s : State) : s.release.Released :=
  ⟨rfl, rfl, rfl, rfl, rfl, rfl, rfl, rfl, rfl, rfl, rfl⟩

section
variable {s : State}

/-- Reset gives the invariant with any parameters, script and buffer (log entry 13); its registers are the released
ones (10_state.md R33, R36). -/
theorem State.Inv.of_reset (cfg : Config) {host : List HostMove} {frame : Memory} (hframe : frame.wf = true)
    (hhost : ∀ move ∈ host, move.wf = true) :
    State.Inv { State.reset with cfg := cfg, host := host, frame := frame } where
  ctrl_legal := Config.resetCtrl_legal
  port_short := show State.reset.port.length < 16 by decide
  frame_wf := hframe
  host_wf := hhost
  released := fun _ => State.reset.release_released
  configured := fun hv => absurd hv (show State.reset.valid ≠ true by decide)

theorem State.Inv.withResponse (inv : s.Inv) (rsp : Option Response) : State.Inv { s with rsp := rsp } :=
  { inv with }

theorem State.Inv.afterReset (inv : s.Inv) {rest : List HostMove} (hrest : ∀ move ∈ rest, move.wf = true) :
    (s.afterReset rest).Inv :=
  .of_reset s.cfg inv.frame_wf hrest

theorem State.Inv.waitWith (inv : s.Inv) {bytes : List Byte} {rest : List HostMove} (hbytes : bytes.length < 16)
    (hrest : ∀ move ∈ rest, move.wf = true) : (s.waitWith bytes rest).Inv :=
  { inv with port_short := hbytes, host_wf := hrest }

theorem State.Inv.lend (inv : s.Inv) {buffer : Memory} {rest : List HostMove} (hbuffer : buffer.wf = true)
    (hrest : ∀ move ∈ rest, move.wf = true) : (s.lend buffer rest).Inv :=
  { inv with port_short := by simp, frame_wf := hbuffer, host_wf := hrest }

theorem State.Inv.countFrame (inv : s.Inv) : s.countFrame.Inv := { inv with }

theorem State.Inv.setFrame (inv : s.Inv) {m : Memory} (hm : m.wf = true) : (s.setFrame m).Inv :=
  { inv with frame_wf := hm }

theorem State.Inv.writeCtrl (inv : s.Inv) {value : BitVec 5} (legal : LegalCtrl value) : (s.writeCtrl value).Inv :=
  { inv with ctrl_legal := legal }

theorem State.Inv.release (inv : s.Inv) : s.release.Inv :=
  { inv with
    released := fun _ => s.release_released
    configured := fun hv => by simp at hv }

theorem State.Inv.install (inv : s.Inv) {w h : BitVec 16} {num den : BitVec 32}
    (accepted : AcceptedFormat s.cfg.maskCap w.toNat h.toNat (signed num) (signed den))
    (std : Standard) (rng : Range) : (s.install w h (frameRate num den) (overlayColor std rng)).Inv :=
  { inv with
    released := fun hv => by simp at hv
    configured := fun _ => State.install_configured accepted std rng }

end

/-! ### The invariant under a command and under a step -/

/-- A drawing FRAME leaves frame space in canonical form. -/
theorem State.composed_wf {s : State} {len : Nat} {m : Memory} (hs : s.frame.wf = true)
    (h : s.composed len = .ok m) : m.wf = true := by
  unfold State.composed at h
  split at h
  · cases h
  · exact Memory.memWrites_wf hs h

theorem Effect.inv {s u : State} {i : Instr} (effect : Effect s i u) (inv : s.Inv) : u.Inv := by
  cases effect with
  | rejected => exact inv.release
  | installed w h num den std accepted => exact inv.install accepted std s.range
  | passed => exact inv.countFrame
  | drawn len wr frame composed => exact inv.countFrame.setFrame (State.composed_wf inv.countFrame.frame_wf composed)
  | ended => exact inv.release
  | controlled value legal => exact inv.writeCtrl legal
  | kept => exact inv

/-- Every command that answers keeps the invariant. -/
theorem exec_inv {i : Instr} {s t : State} (inv : s.Inv) (h : exec i s = .next t) : t.Inv := by
  obtain ⟨u, r, effect, rfl⟩ := exec_effect h
  exact (effect.inv inv).withResponse (some r)

/-- Every step keeps the invariant. -/
theorem step_inv {s t : State} (inv : s.Inv) (h : step s = .next t) : t.Inv := by
  rcases step_cases s with ⟨-, e⟩ | ⟨rest, hhost, e⟩ | ⟨bytes, buffer, rest, hhost, hsend⟩
  · cases e.symm.trans h
    exact inv
  · have hmoves := inv.host_wf
    rw [hhost, List.forall_mem_cons] at hmoves
    cases e.symm.trans h
    exact inv.afterReset hmoves.2
  · have hmoves := inv.host_wf
    rw [hhost, List.forall_mem_cons] at hmoves
    obtain ⟨hbuffer, hrest⟩ := hmoves
    have lent : (s.lend buffer rest).Inv := inv.lend hbuffer hrest
    rcases hsend with ⟨hshort, e⟩ | ⟨-, e⟩ | ⟨d, -, -, ⟨_, -, e⟩ | ⟨i, -, e⟩⟩
    · cases e.symm.trans h
      exact inv.waitWith hshort hrest
    · cases e.symm.trans h
    · cases e.symm.trans h
      exact lent.withResponse _
    · exact exec_inv lent (e.symm.trans h)

/-! ### The statements -/

/-- Settles O4: each step is idle, a reset, a wait, an answer, or a command's effect, and all of these keep it. -/
theorem stepKeepsTheInvariant : Obligations.StepKeepsTheInvariant :=
  fun _ _ inv h => step_inv inv h

/-- Settles O3: with the buffer and the script empty, as reset leaves them. -/
theorem resetMeetsTheInvariant : Obligations.ResetMeetsTheInvariant :=
  fun cap => .of_reset ⟨cap⟩ State.reset_frame_wf nofun

/-- Settles O1: each row is read off `State.reset`; its empty mask has no cell. -/
theorem resetLeavesTheSpecifiedState : Obligations.ResetLeavesTheSpecifiedState :=
  ⟨rfl, rfl, rfl, rfl, rfl, rfl, rfl, rfl, rfl, rfl, rfl, rfl, rfl, rfl, rfl, rfl, rfl,
    fun _ => List.getElem?_nil, rfl, rfl⟩

end Sys2Proof.Machine
end

