-- ==== Sys2Proof/Proofs/NothingStops.lean ====
section
/-! In a state of the invariant nothing is left that a command could stop on: CTRL names a standard, every cell of the
disc holds a value (10_state.md R24, R32), and the overlay's writes lie below MINLEN (20_memory.md R62). -/

namespace Sys2Proof.Machine

/-! ### The overlay of a configured state -/

section
variable {s : State}

/-- The overlay can be read, and it is the writes of the inside cells in raster order. -/
theorem State.Configured.overlayWrites_eq (configured : s.Configured) : s.overlayWrites = .ok s.discWrites := by
  obtain ⟨-, -, -, -, -, -, -, -, -, -, -, -, ⟨-, disc⟩, -⟩ := configured
  refine overlayFrom_ok s (closedDisc s.radius.toNat) _ fun cell hcell => ?_
  obtain ⟨hrow, hcol⟩ := mem_rasterCells.1 hcell
  exact disc cell.1 hrow cell.2 hcol

/-- Every cell of the box has its three addresses below FOOT_END, hence below MINLEN (40_disc_rasterizer.md R108). -/
theorem State.Configured.cellWrites_lt (configured : s.Configured) {cell : Nat × Nat}
    (hcell : cell ∈ rasterCells s.diam.toNat) {c : Host.Cell} (hc : c ∈ s.cellWrites cell) :
    c.1 < s.minlen.toNat := by
  obtain ⟨-, -, -, -, diam_eq, radius_eq, -, loff_eq, uoff_eq, voff_eq, -, foot_fits, -, -⟩ := configured
  obtain ⟨hrow, hcol⟩ := mem_rasterCells.1 hcell
  have hrow' : cell.1 ≤ s.diam.toNat - 1 := by omega
  have lumaRows := Nat.mul_le_mul_right s.width.toNat hrow'
  have chromaRows := Nat.mul_le_mul_right (s.width.toNat / 2) (Nat.div_le_div_right (c := 2) hrow')
  simp only [footEnd, lumaLast, chromaLast, lumaOffset, uOffset, Machine.radius, diameter, Config.diamDiv,
    ← diam_eq, ← radius_eq, ← loff_eq, ← uoff_eq] at foot_fits
  simp only [State.cellWrites, List.mem_cons, List.not_mem_nil, or_false] at hc
  rcases hc with rfl | rfl | rfl
  · simp only [State.lumaAddr]
    omega
  · simp only [State.uAddr]
    omega
  · simp only [State.vAddr]
    omega

/-- No write of the overlay is at or above MINLEN (20_memory.md R62). -/
theorem State.Configured.discWrites_lt (configured : s.Configured) {c : Host.Cell} (hc : c ∈ s.discWrites) :
    c.1 < s.minlen.toNat := by
  obtain ⟨cell, hcell, hc⟩ := List.mem_flatMap.1 hc
  exact configured.cellWrites_lt (List.mem_filter.1 hcell).1 hc

/-- On a frame of at least MINLEN bytes the overlay is drawn. -/
theorem State.Configured.composed_eq (configured : s.Configured) {len : Nat} (hlen : s.minlen.toNat ≤ len) :
    s.composed len = .ok (s.frame.writeAll s.discWrites) := by
  unfold State.composed
  rw [configured.overlayWrites_eq]
  exact Memory.memWrites_ok (fun c hc => Nat.lt_of_lt_of_le (configured.discWrites_lt hc) hlen) _

end

/-! ### Every command answers -/

/-- A chain of tests gives no answer when its first test fails and the rest gives none. -/
theorem ite_some_eq_none_iff {α : Type} {c : Prop} [Decidable c] {a : α} {o : Option α} :
    (if c then some a else o) = none ↔ ¬ c ∧ o = none := by
  by_cases hc : c
  · rw [if_pos hc]
    exact ⟨nofun, fun h => absurd hc h.1⟩
  · rw [if_neg hc]
    exact ⟨fun h => ⟨hc, h⟩, And.right⟩

/-- A FRAME draws exactly when no condition of 42_yuv_plane_compositor.md R155 holds. -/
theorem State.notDrawn_eq_none_iff (s : State) (len : BitVec 64) (wr : Bool) :
    s.notDrawn len wr = none ↔ s.valid = true ∧ wr = true ∧ s.minlen.toNat ≤ len.toNat ∧
      s.showOverlay = true ∧ visible s.counter.toNat s.fps.toNat = true := by
  simp only [State.notDrawn, ite_some_eq_none_iff, Bool.not_eq_false, Nat.not_lt, and_true]

section
variable {s : State}

/-- Which cells of MASK hold a value (10_state.md R32). -/
theorem State.Inv.maskCell_isSome_iff (inv : s.Inv) (cell : Nat) :
    (s.maskCell cell).isSome = true ↔ s.valid = true ∧ cell < s.diam.toNat * s.diam.toNat := by
  cases hv : s.valid with
  | false =>
    obtain ⟨-, -, -, -, -, -, -, -, -, -, mask_eq⟩ := inv.released hv
    simp [State.maskCell, mask_eq]
  | true =>
    obtain ⟨-, -, -, -, -, -, -, -, -, -, -, -, ⟨mask_length, -⟩, -⟩ := inv.configured hv
    simp [State.maskCell, mask_length]

theorem State.Inv.execNegotiate_answers (inv : s.Inv) (w h : BitVec 16) (num den : BitVec 32) :
    ∃ t, execNegotiate w h num den s = .next t := by
  rcases execNegotiate_cases w h num den s with ⟨code, -, e⟩ | ⟨-, ⟨std, -, e⟩ | ⟨hnone, -⟩⟩
  · exact ⟨_, e⟩
  · exact ⟨_, e⟩
  · exact absurd inv.ctrl_legal (s.standard_eq_none_iff.1 hnone)

theorem State.Inv.execFrame_answers (inv : s.Inv) (len : BitVec 64) (wr : Bool) :
    ∃ t, execFrame len wr s = .next t := by
  rcases execFrame_cases len wr s with ⟨reason, -, e⟩ | ⟨hdraws, ⟨f, hfault, -⟩ | ⟨frame, -, e⟩⟩
  · exact ⟨_, e⟩
  · obtain ⟨hv, -, hlen, -, -⟩ := (State.notDrawn_eq_none_iff _ _ _).1 hdraws
    rw [(inv.countFrame.configured hv).composed_eq hlen] at hfault
    cases hfault
  · exact ⟨_, e⟩

theorem execWrctrl_answers (value : BitVec 5) (s : State) : ∃ t, execWrctrl value s = .next t := by
  rcases execWrctrl_cases value s with ⟨-, e⟩ | ⟨-, e⟩
  · exact ⟨_, e⟩
  · exact ⟨_, e⟩

theorem execRdreg_answers (idx : Byte) (s : State) : ∃ t, execRdreg idx s = .next t := by
  rcases execRdreg_cases idx s with ⟨-, e⟩ | ⟨value, -, e⟩
  · exact ⟨_, e⟩
  · exact ⟨_, e⟩

theorem State.Inv.execRdmask_answers (inv : s.Inv) (cell : BitVec 32) : ∃ t, execRdmask cell s = .next t := by
  rcases execRdmask_cases cell s with ⟨-, e⟩ | ⟨hv, hcell, ⟨hnone, -⟩ | ⟨inside, -, e⟩⟩
  · exact ⟨_, e⟩
  · have hsome := (inv.maskCell_isSome_iff cell.toNat).2 ⟨hv, hcell⟩
    rw [hnone] at hsome
    cases hsome
  · exact ⟨_, e⟩

/-- Under the invariant every command answers (60_exceptions.md R206). -/
theorem State.Inv.exec_answers (inv : s.Inv) (i : Instr) : ∃ t, exec i s = .next t := by
  cases i with
  | negotiate w h num den => exact inv.execNegotiate_answers w h num den
  | frame len wr => exact inv.execFrame_answers len wr
  | eos => exact ⟨_, execEos_eq s⟩
  | convert r g b std rng => exact ⟨_, execConvert_eq r g b std rng s⟩
  | wrctrl value => exact execWrctrl_answers value s
  | rdreg idx => exact execRdreg_answers idx s
  | rdmask cell => exact inv.execRdmask_answers cell

theorem State.Inv.exec_ne_fault (inv : s.Inv) (i : Instr) (f : Fault) : exec i s ≠ .fault f := by
  obtain ⟨t, e⟩ := inv.exec_answers i
  simp [e]

theorem State.Inv.exec_ne_refused (inv : s.Inv) (i : Instr) (why : Refusal) : exec i s ≠ .refused why := by
  obtain ⟨t, e⟩ := inv.exec_answers i
  simp [e]

theorem State.Inv.standard_ne_none (inv : s.Inv) : s.standard ≠ none :=
  fun hnone => s.standard_eq_none_iff.1 hnone inv.ctrl_legal

theorem State.Configured.fps_pos (configured : s.Configured) : 1 ≤ s.fps.toNat := by
  obtain ⟨-, -, rate_pos, -⟩ := configured
  exact rate_pos

end

/-- Settles O54: the state after the step meets the invariant, which leaves none of the three faults a cause. -/
theorem statesThatWouldStopNeverArise : Obligations.StatesThatWouldStopNeverArise := by
  intro s t hs hstep
  have inv : t.Inv := step_inv hs hstep
  refine ⟨inv.standard_ne_none, inv.maskCell_isSome_iff, fun hv => ?_, inv.exec_ne_fault, inv.exec_ne_refused⟩
  have configured := inv.configured hv
  exact ⟨configured.fps_pos, t.discWrites, configured.overlayWrites_eq, fun _ hc => configured.discWrites_lt hc⟩

end Sys2Proof.Machine
end

