-- ==== Sys2Proof/Proofs/FrameAnswer.lean ====
section
/-! The two ways FRAME answers (42_yuv_plane_compositor.md R150), said as an equivalence, and what follows from it about
frame space: no write falls outside it (20_memory.md R62), and none of its bytes is read (R54). -/

namespace Sys2Proof.Machine

/-! ### What the overlay and the decision to draw depend on -/

/-- The overlay depends on DIAM, MASK and the three writes of a cell alone. -/
theorem overlayFrom_congr {s t : State} (diam : s.diam = t.diam) (mask : s.mask = t.mask)
    (writes : s.cellWrites = t.cellWrites) (cells : List (Nat × Nat)) :
    overlayFrom s cells = overlayFrom t cells := by
  induction cells with
  | nil => rfl
  | cons cell rest ih => simp only [overlayFrom, State.maskCell, diam, mask, writes, ih]

theorem State.overlayWrites_congr {s t : State} (diam : s.diam = t.diam) (mask : s.mask = t.mask)
    (writes : s.cellWrites = t.cellWrites) : s.overlayWrites = t.overlayWrites := by
  rw [State.overlayWrites, overlayFrom_congr diam mask writes, diam, ← State.overlayWrites]

section
variable (s : State)

theorem State.countFrame_overlayWrites : s.countFrame.overlayWrites = s.overlayWrites :=
  State.overlayWrites_congr rfl rfl rfl

theorem State.setFrame_overlayWrites (m : Memory) : (s.setFrame m).overlayWrites = s.overlayWrites :=
  State.overlayWrites_congr rfl rfl rfl

theorem State.setFrame_countFrame_notDrawn (m : Memory) (len : BitVec 64) (wr : Bool) :
    (s.setFrame m).countFrame.notDrawn len wr = s.countFrame.notDrawn len wr := rfl

end

/-- A frame is composed exactly when the overlay can be read and lies inside it. -/
theorem State.composed_eq_ok_iff (s : State) (len : Nat) (m : Memory) :
    s.composed len = .ok m ↔
      ∃ writes, s.overlayWrites = .ok writes ∧ (∀ c ∈ writes, c.1 < len) ∧ m = s.frame.writeAll writes := by
  unfold State.composed
  cases hw : s.overlayWrites with
  | error f => exact ⟨nofun, fun ⟨_, h, _⟩ => nomatch h⟩
  | ok writes =>
    rcases s.frame.memWrites_cases len writes with ⟨inside, hok⟩ | ⟨c, hc, hlen, herr⟩
    · simp only [hok, Except.ok.injEq, exists_eq_left']
      exact ⟨fun h => ⟨inside, h.symm⟩, fun h => h.2.symm⟩
    · simp only [herr, reduceCtorEq, Except.ok.injEq, exists_eq_left', false_iff]
      exact fun h => absurd (h.1 c hc) (Nat.not_lt.2 hlen)

/-! ### The two answers -/

/-- `FrameAnswer s len wr t`: `t` is what FRAME len, wr leaves in `s`, passed through for a reason or drawn. -/
inductive FrameAnswer (s : State) (len : BitVec 64) (wr : Bool) : State → Prop
  | passed (reason : Reason) (notDrawn : s.countFrame.notDrawn len wr = some reason) :
      FrameAnswer s len wr
        (s.countFrame.respond opFrame .ok true false reason ((s.counter + 1).setWidth 64))
  | drawn (writes : List Host.Cell) (draws : s.countFrame.notDrawn len wr = none)
      (overlay : s.overlayWrites = .ok writes) (inside : ∀ c ∈ writes, c.1 < len.toNat) :
      FrameAnswer s len wr
        ((s.countFrame.setFrame (s.frame.writeAll writes)).respond opFrame .ok true true .noReason
          ((s.counter + 1).setWidth 64))

/-- FRAME answers in these two ways and in no other. -/
theorem execFrame_eq_next_iff {s t : State} {len : BitVec 64} {wr : Bool} :
    execFrame len wr s = .next t ↔ FrameAnswer s len wr t := by
  constructor
  · intro h
    rcases execFrame_cases len wr s with ⟨reason, notDrawn, e⟩ | ⟨draws, ⟨f, -, e⟩ | ⟨frame, composed, e⟩⟩
    · cases e.symm.trans h
      exact .passed reason notDrawn
    · cases e.symm.trans h
    · cases e.symm.trans h
      obtain ⟨writes, overlay, inside, rfl⟩ := (State.composed_eq_ok_iff _ _ _).1 composed
      exact .drawn writes draws (s.countFrame_overlayWrites.symm.trans overlay) inside
  · intro answer
    cases answer with
    | passed reason notDrawn => simp only [execFrame, notDrawn, State.countFrame_counter]
    | drawn writes draws overlay inside =>
      have composed : s.countFrame.composed len.toNat = .ok (s.frame.writeAll writes) :=
        (State.composed_eq_ok_iff _ _ _).2 ⟨writes, s.countFrame_overlayWrites.trans overlay, inside, rfl⟩
      simp only [execFrame, draws, composed, State.countFrame_counter]

/-- FRAME draws on a writable frame of at least MINLEN bytes with SHOW on and a visible phase. -/
theorem State.Inv.execFrame_draws {s : State} (inv : s.Inv) {len : BitVec 64} (valid : s.valid = true)
    (long : s.minlen.toNat ≤ len.toNat) (showing : s.showOverlay = true)
    (phase_visible : (s.counter + 1).toNat % s.fps.toNat < s.fps.toNat / 2) :
    execFrame len true s = .next ((s.countFrame.setFrame (s.frame.writeAll s.discWrites)).respond
      opFrame .ok true true .noReason ((s.counter + 1).setWidth 64)) := by
  have configured := inv.configured valid
  have draws : s.countFrame.notDrawn len true = none :=
    (State.notDrawn_eq_none_iff _ _ _).2 ⟨valid, rfl, long, showing, decide_eq_true phase_visible⟩
  exact execFrame_eq_next_iff.2 (.drawn s.discWrites draws configured.overlayWrites_eq
    fun _ hc => Nat.lt_of_lt_of_le (configured.discWrites_lt hc) long)

/-! ### The statements -/

/-- Settles O38: the overlay of a configured state lies below MINLEN, and a drawn frame is not shorter (R155). -/
theorem everyWriteIsInsideTheFrame : Obligations.EveryWriteIsInsideTheFrame := by
  intro s inv hv
  have configured := inv.configured hv
  have below : ∀ writes, s.overlayWrites = .ok writes → ∀ c ∈ writes, c.1 < s.minlen.toNat := by
    intro writes hwrites c hc
    cases configured.overlayWrites_eq.symm.trans hwrites
    exact configured.discWrites_lt hc
  refine ⟨below, fun len wr t r hexec hr hdrawn => ?_⟩
  cases execFrame_eq_next_iff.1 hexec with
  | passed reason notDrawn =>
    cases hr
    cases hdrawn
  | drawn writes draws overlay inside =>
    obtain ⟨-, -, long, -, -⟩ := (State.notDrawn_eq_none_iff _ _ _).1 draws
    exact ⟨long, fun writes hwrites c hc => Nat.lt_of_lt_of_le (below writes hwrites c hc) long⟩

/-- Settles O42: neither the decision nor the overlay depends on the frame, so on another frame FRAME gives the answer of
the same kind, and both frames take the same writes. -/
theorem frameNeverReadsFrameSpace : Obligations.FrameNeverReadsFrameSpace := by
  intro s t other len wr hexec
  cases execFrame_eq_next_iff.1 hexec with
  | passed reason notDrawn =>
    have answer : FrameAnswer (s.setFrame other) len wr _ :=
      .passed reason ((s.setFrame_countFrame_notDrawn other len wr).trans notDrawn)
    refine ⟨_, execFrame_eq_next_iff.2 answer, rfl, fun a => ⟨fun _ => ⟨rfl, rfl⟩, ?_⟩⟩
    rintro ⟨⟨r, hr, hdrawn⟩, -⟩
    cases hr
    cases hdrawn
  | drawn writes draws overlay inside =>
    have answer : FrameAnswer (s.setFrame other) len wr _ :=
      .drawn writes ((s.setFrame_countFrame_notDrawn other len wr).trans draws)
        ((s.setFrame_overlayWrites other).trans overlay) inside
    refine ⟨_, execFrame_eq_next_iff.2 answer, rfl, fun a => ⟨fun unwritten => ?_, ?_⟩⟩
    · have unnamed : ∀ c ∈ writes, c.1 ≠ a := fun c hc hca =>
        unwritten ⟨⟨_, rfl, rfl⟩, writes, overlay, c, hc, hca⟩
      exact ⟨Memory.read_writeAll_other unnamed _, Memory.read_writeAll_other unnamed _⟩
    · rintro ⟨-, writes', overlay', named⟩
      cases overlay.symm.trans overlay'
      obtain ⟨v, hv⟩ := Memory.read_writeAll_named named
      exact ⟨v, hv _, hv _⟩

end Sys2Proof.Machine
end

