-- ==== Sys2Proof/Proofs/FramePlanes.lean ====
section
/-! Where the overlay lies in the three planes of a frame (20_memory.md R60) when the width and the height are even and
the height is at least twice the diameter (40_disc_rasterizer.md R115, 42_yuv_plane_compositor.md R163), and what a
drawn frame then shows (R160). -/

namespace Sys2Proof.Machine

/-- A configured state of a format whose planes hold the whole box of the disc (40_disc_rasterizer.md R115). -/
structure State.PlanesHoldBox (s : State) : Prop where
  configured : s.Configured
  width_even : s.width.toNat % 2 = 0
  height_even : s.height.toNat % 2 = 0
  height_holds : 2 * s.diam.toNat ≤ s.height.toNat

/-! ### The address of a cell as a row and a column of its plane -/

section
variable {s : State}

/-- Cell (y, x) is luma sample (D + y, D + x). -/
theorem State.Configured.lumaAddr_eq (configured : s.Configured) (y x : Nat) :
    s.lumaAddr y x = (s.diam.toNat + y) * s.width.toNat + (s.diam.toNat + x) := by
  obtain ⟨-, -, -, -, -, -, -, loff_eq, -⟩ := configured
  rw [State.lumaAddr, loff_eq, Nat.add_mul, Nat.mul_comm s.width.toNat]
  omega

/-- Half of `r` rows of even width `w` is `r` whole chroma rows. -/
theorem even_mul_div_two {w : Nat} (even : w % 2 = 0) (r : Nat) : w * r / 2 = r * (w / 2) := by
  rw [Nat.mul_comm, Nat.mul_div_assoc _ (Nat.dvd_of_mod_eq_zero even)]

/-- Cell (y, x) is sample (R + y / 2, R + x / 2) of the first chroma plane through VOFF. -/
theorem State.Configured.vAddr_eq (configured : s.Configured) (even : s.width.toNat % 2 = 0) (y x : Nat) :
    s.vAddr y x = s.width.toNat * s.height.toNat +
      (s.radius.toNat + y / 2) * (s.width.toNat / 2) + (s.radius.toNat + x / 2) := by
  obtain ⟨-, -, -, -, -, -, -, -, -, voff_eq, -⟩ := configured
  rw [State.vAddr, voff_eq, even_mul_div_two even, Nat.add_mul]
  omega

/-- Cell (y, x) is the same sample of the second chroma plane through UOFF. -/
theorem State.Configured.uAddr_eq (configured : s.Configured) (even : s.width.toNat % 2 = 0) (y x : Nat) :
    s.uAddr y x = s.width.toNat * s.height.toNat + s.width.toNat * s.height.toNat / 4 +
      (s.radius.toNat + y / 2) * (s.width.toNat / 2) + (s.radius.toNat + x / 2) := by
  obtain ⟨-, -, -, -, -, -, -, -, uoff_eq, -⟩ := configured
  rw [State.uAddr, uoff_eq, even_mul_div_two even, Nat.add_mul]
  omega

end

/-! ### The rows and columns of the box lie in the planes -/

/-- A sample of a plane of `rows` rows of `cols` samples lies below the plane's size. -/
theorem sample_lt {row col rows cols : Nat} (hrow : row < rows) (hcol : col < cols) :
    row * cols + col < rows * cols :=
  calc row * cols + col
    _ < row * cols + cols := Nat.add_lt_add_left hcol _
    _ = (row + 1) * cols := (Nat.succ_mul row cols).symm
    _ ≤ rows * cols := Nat.mul_le_mul_right cols hrow

/-- A chroma plane of half the rows and half the columns has a quarter of the luma samples, with no remainder. -/
theorem four_mul_chroma_size {w h : Nat} (hw : w % 2 = 0) (hh : h % 2 = 0) : 4 * (h / 2 * (w / 2)) = w * h := by
  obtain ⟨a, rfl⟩ := Nat.dvd_of_mod_eq_zero hw
  obtain ⟨b, rfl⟩ := Nat.dvd_of_mod_eq_zero hh
  rw [Nat.mul_div_cancel_left a Nat.two_pos, Nat.mul_div_cancel_left b Nat.two_pos, Nat.mul_mul_mul_comm 2 a 2 b,
    Nat.mul_comm b a]

namespace State.PlanesHoldBox

section
variable {s : State} (box : s.PlanesHoldBox) {y x : Nat}
include box

theorem luma_row_lt (hy : y < s.diam.toNat) : s.diam.toNat + y < s.height.toNat := by
  have := box.height_holds
  omega

theorem luma_col_lt (hx : x < s.diam.toNat) : s.diam.toNat + x < s.width.toNat := by
  obtain ⟨-, -, -, -, diam_eq, -⟩ := box.configured
  omega

theorem chroma_row_lt (hy : y < s.diam.toNat) : s.radius.toNat + y / 2 < s.height.toNat / 2 := by
  have := box.height_holds
  obtain ⟨-, -, -, -, -, radius_eq, -⟩ := box.configured
  omega

theorem chroma_col_lt (hx : x < s.diam.toNat) : s.radius.toNat + x / 2 < s.width.toNat / 2 := by
  obtain ⟨-, -, -, -, diam_eq, radius_eq, -⟩ := box.configured
  omega

theorem lumaAddr_lt (hy : y < s.diam.toNat) (hx : x < s.diam.toNat) :
    s.lumaAddr y x < s.width.toNat * s.height.toNat := by
  rw [box.configured.lumaAddr_eq, Nat.mul_comm s.width.toNat s.height.toNat]
  exact sample_lt (box.luma_row_lt hy) (box.luma_col_lt hx)

theorem vAddr_ge (y x : Nat) : s.width.toNat * s.height.toNat ≤ s.vAddr y x := by
  rw [box.configured.vAddr_eq box.width_even]
  omega

theorem vAddr_lt (hy : y < s.diam.toNat) (hx : x < s.diam.toNat) :
    s.vAddr y x < s.width.toNat * s.height.toNat + s.width.toNat * s.height.toNat / 4 := by
  have inPlane := sample_lt (box.chroma_row_lt hy) (box.chroma_col_lt hx)
  have size := four_mul_chroma_size box.width_even box.height_even
  rw [box.configured.vAddr_eq box.width_even]
  omega

theorem uAddr_ge (y x : Nat) :
    s.width.toNat * s.height.toNat + s.width.toNat * s.height.toNat / 4 ≤ s.uAddr y x := by
  rw [box.configured.uAddr_eq box.width_even]
  omega

theorem uAddr_lt (hy : y < s.diam.toNat) (hx : x < s.diam.toNat) :
    s.uAddr y x < s.width.toNat * s.height.toNat * 3 / 2 := by
  have inPlane := sample_lt (box.chroma_row_lt hy) (box.chroma_col_lt hx)
  have size := four_mul_chroma_size box.width_even box.height_even
  rw [box.configured.uAddr_eq box.width_even]
  omega

end

end State.PlanesHoldBox

/-- Settles O37: the addresses by row and column, and the bounds of the planes they lie in. -/
theorem planesContainTheBox : Obligations.PlanesContainTheBox := by
  intro s configured width_even height_even height_holds w h d r y x hy hx
  have box : s.PlanesHoldBox := ⟨configured, width_even, height_even, height_holds⟩
  exact ⟨configured.lumaAddr_eq y x, box.luma_row_lt hy, box.luma_col_lt hx,
    configured.vAddr_eq width_even y x, configured.uAddr_eq width_even y x,
    box.chroma_row_lt hy, box.chroma_col_lt hx, box.lumaAddr_lt hy hx, box.vAddr_lt hy hx, box.uAddr_lt hy hx⟩

/-! ### The colour in each plane -/

/-- The component of COLOR that the overlay writes at an address: Y in the luma plane, V in the plane VOFF points into,
U in the plane UOFF points into (20_memory.md R60, 42_yuv_plane_compositor.md R157). -/
def State.planeColor (s : State) (a : Nat) : Byte :=
  if a < s.width.toNat * s.height.toNat then s.colorY
  else if a < s.width.toNat * s.height.toNat + s.width.toNat * s.height.toNat / 4 then s.colorV
  else s.colorU

section
variable {s : State}

/-- Each write of a cell of the box carries the colour of the plane it goes to. -/
theorem State.PlanesHoldBox.cellWrites_color (box : s.PlanesHoldBox) {cell : Nat × Nat}
    (hcell : cell ∈ rasterCells s.diam.toNat) {c : Host.Cell} (hc : c ∈ s.cellWrites cell) :
    c.2 = s.planeColor c.1 := by
  obtain ⟨hy, hx⟩ := mem_rasterCells.1 hcell
  have luma := box.lumaAddr_lt hy hx
  have v_ge := box.vAddr_ge cell.1 cell.2
  have v_lt := box.vAddr_lt hy hx
  have u_ge := box.uAddr_ge cell.1 cell.2
  simp only [State.cellWrites, List.mem_cons, List.not_mem_nil, or_false] at hc
  rcases hc with rfl | rfl | rfl
  · exact (if_pos luma).symm
  · exact ((if_neg (by omega)).trans (if_neg (by omega))).symm
  · exact ((if_neg (by omega)).trans (if_pos v_lt)).symm

/-- Every write of the overlay reads back: the others at its address, if any, carry the same colour. -/
theorem State.PlanesHoldBox.read_writeAll_discWrites (box : s.PlanesHoldBox) {a : Nat} {v : Byte}
    (hc : (a, v) ∈ s.discWrites) (m : Memory) : (m.writeAll s.discWrites).read a = some v := by
  have color : ∀ c ∈ s.discWrites, c.2 = s.planeColor c.1 := by
    intro c hc
    obtain ⟨cell, hcell, hc⟩ := List.mem_flatMap.1 hc
    exact box.cellWrites_color (List.mem_filter.1 hcell).1 hc
  refine Memory.read_writeAll_same hc (fun c hc' hca => ?_) m
  rw [color c hc', hca, ← color (a, v) hc]

end

/-- Settles O36: the three writes of an inside cell are among the overlay's, and each of those reads back. -/
theorem drawnFrameShowsTheDisc : Obligations.DrawnFrameShowsTheDisc := by
  intro s len inv valid long showing phase_visible width_even height_even height_holds
  have box : s.PlanesHoldBox := ⟨inv.configured valid, width_even, height_even, height_holds⟩
  refine ⟨_, inv.execFrame_draws valid long showing phase_visible, fun cell hcell => ?_⟩
  have shown : ∀ {a v}, (a, v) ∈ s.cellWrites cell → (s.frame.writeAll s.discWrites).read a = some v :=
    fun hc => box.read_writeAll_discWrites (List.mem_flatMap.2 ⟨cell, hcell, hc⟩) s.frame
  exact ⟨shown (.head _), shown (.tail _ (.head _)), shown (.tail _ (.tail _ (.head _)))⟩

end Sys2Proof.Machine
end

