-- ==== Sys2Proof/Proofs/EncodingRoundTrip.lean ====
section
/-! The decoder and the encoder undo each other (30_encoding.md R75 to R84, R87): what each command's decoder accepts, as
an equivalence on the fields of the descriptor, and from it the two round trips. -/

namespace Sys2Proof

open Laws Machine

/-! ### What each command's decoder accepts -/

/-- A check that passes: the shape of every must-be-zero test (30_encoding.md R73). -/
theorem ite_error_eq_ok_iff {ε α : Type} {c : Prop} [Decidable c] {e : ε} {x : Except ε α} {a : α} :
    (if c then .error e else x) = .ok a ↔ ¬ c ∧ x = .ok a := by
  split <;> simp [*]

theorem Standard.ofBits_eq_some_iff {v : BitVec 2} {std : Standard} :
    Standard.ofBits v = some std ↔ std.bits = v :=
  ⟨Standard.bits_of_ofBits, fun h => h ▸ Standard.ofBits_bits std⟩

/-- The flag a one-bit field is read as gives the field back. -/
theorem ofBool_eq_one (v : BitVec 1) : BitVec.ofBool (v = 1) = v := by
  revert v
  decide

section
variable {d : Descriptor} {i : Instr}

theorem decodeNegotiate_eq_ok_iff :
    decodeNegotiate d = .ok i ↔ d.w0.extractLsb' 8 24 = 0 ∧
      .negotiate (d.w1.extractLsb' 0 16) (d.w1.extractLsb' 16 16) d.w2 d.w3 = i := by
  simp only [decodeNegotiate, ite_error_eq_ok_iff, ne_eq, Decidable.not_not, Except.ok.injEq]

theorem decodeFrame_eq_ok_iff :
    decodeFrame d = .ok i ↔ (d.w0.extractLsb' 9 23 = 0 ∧ d.w3 = 0) ∧
      .frame (d.w2 ++ d.w1) (d.w0.extractLsb' 8 1 = 1) = i := by
  simp only [decodeFrame, ite_error_eq_ok_iff, ne_eq, not_or, Decidable.not_not, Except.ok.injEq]

theorem decodeEos_eq_ok_iff :
    decodeEos d = .ok i ↔ (d.w0.extractLsb' 8 24 = 0 ∧ d.w1 = 0 ∧ d.w2 = 0 ∧ d.w3 = 0) ∧ .eos = i := by
  simp only [decodeEos, ite_error_eq_ok_iff, ne_eq, not_or, Decidable.not_not, Except.ok.injEq]

theorem decodeConvert_eq_ok_iff :
    decodeConvert d = .ok i ↔
      (d.w0.extractLsb' 11 21 = 0 ∧ d.w1.extractLsb' 24 8 = 0 ∧ d.w2 = 0 ∧ d.w3 = 0) ∧
        ∃ std, std.bits = d.w0.extractLsb' 8 2 ∧ .convert (d.w1.extractLsb' 0 8) (d.w1.extractLsb' 8 8)
          (d.w1.extractLsb' 16 8) std (Range.ofBit (d.w0.extractLsb' 10 1)) = i := by
  simp only [decodeConvert, ite_error_eq_ok_iff, ne_eq, not_or, Decidable.not_not,
    ← Standard.ofBits_eq_some_iff]
  cases Standard.ofBits (d.w0.extractLsb' 8 2) with
  | none => simp
  | some std => simp

theorem decodeWrctrl_eq_ok_iff :
    decodeWrctrl d = .ok i ↔
      (d.w0.extractLsb' 8 24 = 0 ∧ d.w1.extractLsb' 5 27 = 0 ∧ d.w2 = 0 ∧ d.w3 = 0) ∧
        LegalCtrl (d.w1.extractLsb' 0 5) ∧ .wrctrl (d.w1.extractLsb' 0 5) = i := by
  simp only [decodeWrctrl, ite_error_eq_ok_iff, ne_eq, not_or, Decidable.not_not]
  split
  · simp only [*, true_and, Except.ok.injEq, not_false_eq_true]
  · simp only [*, false_and, reduceCtorEq]

theorem decodeRdreg_eq_ok_iff :
    decodeRdreg d = .ok i ↔ (d.w0.extractLsb' 16 16 = 0 ∧ d.w1 = 0 ∧ d.w2 = 0 ∧ d.w3 = 0) ∧
      .rdreg (d.w0.extractLsb' 8 8) = i := by
  simp only [decodeRdreg, ite_error_eq_ok_iff, ne_eq, not_or, Decidable.not_not, Except.ok.injEq]

theorem decodeRdmask_eq_ok_iff :
    decodeRdmask d = .ok i ↔ (d.w0.extractLsb' 8 24 = 0 ∧ d.w2 = 0 ∧ d.w3 = 0) ∧ .rdmask d.w1 = i := by
  simp only [decodeRdmask, ite_error_eq_ok_iff, ne_eq, not_or, Decidable.not_not, Except.ok.injEq]

end

/-! ### The two directions -/

/-- Each field of an encoding is the operand that was put there, and the bits between are zero. -/
theorem decode_encode {i : Instr} (wf : i.wellFormed = true) : decode (encode i) = .ok i := by
  cases i with
  | negotiate w h num den =>
    rw [decode_negotiate (OpcodeByte.negotiate w h num den), decodeNegotiate_eq_ok_iff]
    simp (disch := decide) only [encode, extract_append_low, extract_append_high, Nat.reduceSub, extract_zero,
      extract_whole, and_self]
  | frame len wr =>
    rw [decode_frame (OpcodeByte.frame len wr), decodeFrame_eq_ok_iff]
    have flag : decide (BitVec.ofBool wr = 1) = wr := by cases wr <;> rfl
    simp (disch := decide) only [encode, extract_append_low, extract_append_high, Nat.reduceSub, extract_zero,
      extract_whole, BitVec.extractLsb'_append_extractLsb'_eq_extractLsb', flag, and_self]
  | eos =>
    rw [decode_eos OpcodeByte.eos, decodeEos_eq_ok_iff]
    simp (disch := decide) only [encode, extract_append_high, Nat.reduceSub, extract_zero, and_self]
  | convert r g b std rng =>
    rw [decode_convert (OpcodeByte.convert r g b std rng), decodeConvert_eq_ok_iff]
    refine ⟨?_, std, ?_⟩
    all_goals simp (disch := decide) only [encode, extract_append_low, extract_append_high, Nat.reduceSub, extract_zero,
      extract_whole, Range.ofBit_bit, and_self]
  | wrctrl value =>
    rw [decode_wrctrl (OpcodeByte.wrctrl value), decodeWrctrl_eq_ok_iff]
    have legal : LegalCtrl value := of_decide_eq_true wf
    simp (disch := decide) only [encode, extract_append_low, extract_append_high, Nat.reduceSub, extract_zero,
      extract_whole, and_self, and_true, true_and]
    exact legal
  | rdreg idx =>
    rw [decode_rdreg (OpcodeByte.rdreg idx), decodeRdreg_eq_ok_iff]
    simp (disch := decide) only [encode, extract_append_low, extract_append_high, Nat.reduceSub, extract_zero,
      extract_whole, and_self]
  | rdmask cell =>
    rw [decode_rdmask (OpcodeByte.rdmask cell), decodeRdmask_eq_ok_iff]
    simp (disch := decide) only [encode, extract_append_high, Nat.reduceSub, extract_zero, and_self]

/-- The fields of an accepted descriptor, put together with the zeros between them, are its words. -/
theorem encode_of_decode {d : Descriptor} {i : Instr} (h : decode d = .ok i) :
    encode i = d ∧ i.wellFormed = true := by
  rcases decode_cases d with ⟨hopc, e⟩ | ⟨hopc, e⟩ | ⟨hopc, e⟩ | ⟨hopc, e⟩ | ⟨hopc, e⟩ | ⟨hopc, e⟩ | ⟨hopc, e⟩ | ⟨-, e⟩
  all_goals rw [e] at h
  · obtain ⟨hz, rfl⟩ := decodeNegotiate_eq_ok_iff.1 h
    refine ⟨Descriptor.ext_words (Descriptor.w0_of_opc hopc hz) ?_ rfl rfl, rfl⟩
    exact BitVec.extractLsb'_append_extractLsb' (w := 16)
  · obtain ⟨⟨hz, h3⟩, rfl⟩ := decodeFrame_eq_ok_iff.1 h
    refine ⟨Descriptor.ext_words ?_ BitVec.extractLsb'_append_eq_right BitVec.extractLsb'_append_eq_left h3.symm, rfl⟩
    simp (disch := decide) only [encode, ofBool_eq_one, ← hz, ← hopc, Descriptor.opc,
      BitVec.extractLsb'_append_extractLsb'_eq_extractLsb', extract_whole]
  · obtain ⟨⟨hz, h1, h2, h3⟩, rfl⟩ := decodeEos_eq_ok_iff.1 h
    exact ⟨Descriptor.ext_words (Descriptor.w0_of_opc hopc hz) h1.symm h2.symm h3.symm, rfl⟩
  · obtain ⟨⟨hz, h1, h2, h3⟩, std, hstd, rfl⟩ := decodeConvert_eq_ok_iff.1 h
    refine ⟨Descriptor.ext_words ?_ ?_ h2.symm h3.symm, rfl⟩
    · simp (disch := decide) only [encode, Range.bit_ofBit, hstd, ← hz, ← hopc, Descriptor.opc,
        BitVec.extractLsb'_append_extractLsb'_eq_extractLsb', extract_whole]
    · simp (disch := decide) only [encode, ← h1, BitVec.extractLsb'_append_extractLsb'_eq_extractLsb', extract_whole]
  · obtain ⟨⟨hz, h1, h2, h3⟩, legal, rfl⟩ := decodeWrctrl_eq_ok_iff.1 h
    refine ⟨Descriptor.ext_words (Descriptor.w0_of_opc hopc hz) ?_ h2.symm h3.symm, decide_eq_true legal⟩
    simp (disch := decide) only [encode, ← h1, BitVec.extractLsb'_append_extractLsb'_eq_extractLsb', extract_whole]
  · obtain ⟨⟨hz, h1, h2, h3⟩, rfl⟩ := decodeRdreg_eq_ok_iff.1 h
    refine ⟨Descriptor.ext_words ?_ h1.symm h2.symm h3.symm, rfl⟩
    simp (disch := decide) only [encode, ← hz, ← hopc, Descriptor.opc,
      BitVec.extractLsb'_append_extractLsb'_eq_extractLsb', extract_whole]
  · obtain ⟨⟨hz, h2, h3⟩, rfl⟩ := decodeRdmask_eq_ok_iff.1 h
    exact ⟨Descriptor.ext_words (Descriptor.w0_of_opc hopc hz) rfl h2.symm h3.symm, rfl⟩
  · cases h

/-- Decoding sixteen bytes is decoding the descriptor they hold (30_encoding.md R71). -/
theorem decodeBytes_bytes {d : Descriptor} {i : Instr} (h : decode d = .ok i) :
    decodeBytes d.bytes = .ok (i, []) := by
  have whole : descriptorOfBytes d.bytes = some (d, []) := by simpa using descriptorOfBytes_bytes d []
  simp only [decodeBytes, whole, h]

/-! ### The statements -/

/-- Settles O11: the words decode field by field, and the bytes give the words. -/
theorem decodeUndoesEncode : Obligations.DecodeUndoesEncode :=
  fun _ wf => ⟨decode_encode wf, decodeBytes_bytes (decode_encode wf)⟩

/-- Settles O12: the fields the decoder reads and the zeros it requires are all 128 bits. -/
theorem encodeUndoesDecode : Obligations.EncodeUndoesDecode :=
  fun _ _ => encode_of_decode

/-- Settles O15: each word of 95_test_vectors.md section 2 decodes by evaluation. -/
theorem specWordsDecode : Obligations.SpecWordsDecode :=
  ⟨rfl, rfl, rfl, rfl, rfl, rfl, rfl⟩

end Sys2Proof
end

