-- ==== Sys2Proof/Proofs/OpcodeTable.lean ====
section
/-! The opcode table and the decoder (30_encoding.md R74, R86): a descriptor's opcode picks the one row it can fit, and
that row's mask, read as the fields it tests, is the must-be-zero test of the command's decoder. -/

namespace Sys2Proof

/-! ### The row of an opcode -/

/-- The opcode a row asks for. -/
def OpcodeRow.opc (row : OpcodeRow) : Byte := row.pattern.extractLsb' 0 8

/-- Every row tests the whole opcode byte. -/
theorem opcodeTable_mask_opc : ∀ row ∈ opcodeTable, row.mask.extractLsb' 0 8 = BitVec.allOnes 8 := by decide

theorem opcodeTable_opc_ne : opcodeTable.Pairwise fun a b => a.opc ≠ b.opc := by decide

theorem opcodeTable_opc_inj : ∀ a ∈ opcodeTable, ∀ b ∈ opcodeTable, a.opc = b.opc → a = b := by decide

theorem opcodeTable_opc_mem : ∀ row ∈ opcodeTable, row.opc ∈
    [opNegotiate, opFrame, opEos, opConvert, opWrctrl, opRdreg, opRdmask] := by decide

theorem Descriptor.number_opc (d : Descriptor) : d.number.extractLsb' 0 8 = d.opc :=
  extract_append_low _ _ _ _ (by decide)

/-- A descriptor that fits a row has the row's opcode. -/
theorem opc_eq_of_fits {row : OpcodeRow} {d : Descriptor} (hrow : row ∈ opcodeTable) (fits : row.fits d = true) :
    d.opc = row.opc := by
  have masked : d.number &&& row.mask = row.pattern := eq_of_beq fits
  rw [OpcodeRow.opc, ← masked, BitVec.extractLsb'_and, opcodeTable_mask_opc row hrow, BitVec.and_allOnes,
    Descriptor.number_opc]

/-- A descriptor with a row's opcode is legal by that row or not at all. -/
theorem legal_iff_of_opc {row : OpcodeRow} {d : Descriptor} (hrow : row ∈ opcodeTable)
    (hopc : d.opc = row.opc) : d.legal = true ↔ row.fits d = true ∧ d.reservedStd = false := by
  rw [Descriptor.legal, Bool.and_eq_true, List.any_eq_true, Bool.not_eq_true']
  refine and_congr_left fun _ => ⟨fun ⟨other, hother, fits⟩ => ?_, fun fits => ⟨row, hrow, fits⟩⟩
  have same : other = row := opcodeTable_opc_inj other hother row hrow ((opc_eq_of_fits hother fits).symm.trans hopc)
  exact same ▸ fits

/-- A reserved opcode fits no row. -/
theorem not_legal_of_opc {d : Descriptor}
    (hopc : ∀ op ∈ [opNegotiate, opFrame, opEos, opConvert, opWrctrl, opRdreg, opRdmask], d.opc ≠ op) :
    ¬ d.legal = true := by
  rw [Descriptor.legal, Bool.and_eq_true, List.any_eq_true]
  rintro ⟨⟨row, hrow, fits⟩, -⟩
  exact hopc _ (opcodeTable_opc_mem row hrow) (opc_eq_of_fits hrow fits)

/-! ### A row, field by field -/

/-- Two concatenations of the same widths are equal part by part. -/
theorem append_eq_append_iff {a b : Nat} {x x' : BitVec a} {y y' : BitVec b} :
    x ++ y = x' ++ y' ↔ x = x' ∧ y = y' := by
  refine ⟨fun h => ⟨?_, ?_⟩, fun ⟨hx, hy⟩ => hx ▸ hy ▸ rfl⟩
  · simpa only [BitVec.extractLsb'_append_eq_left] using congrArg (·.extractLsb' b a) h
  · simpa only [BitVec.extractLsb'_append_eq_right] using congrArg (·.extractLsb' 0 b) h

/-- The mask that tests the upper `a` and the lower `c` bits of a word and leaves the `b` bits between free. -/
def fieldMask (a b c : Nat) : BitVec (a + b + c) := BitVec.allOnes a ++ (0 : BitVec b) ++ BitVec.allOnes c

/-- A word matches under such a mask when its upper field is zero and its lower field is the pattern. -/
theorem and_fieldMask_eq_iff (a b c : Nat) (w : BitVec (a + b + c)) (p : BitVec c) :
    w &&& fieldMask a b c = (0 : BitVec (a + b)) ++ p ↔ w.extractLsb' (b + c) a = 0 ∧ w.extractLsb' 0 c = p := by
  have fields : w = w.extractLsb' (b + c) a ++ w.extractLsb' c b ++ w.extractLsb' 0 c := by
    rw [BitVec.extractLsb'_append_extractLsb'_eq_extractLsb' (Nat.add_comm b c),
      BitVec.extractLsb'_append_extractLsb']
  have masked : w &&& fieldMask a b c = w.extractLsb' (b + c) a ++ (0 : BitVec b) ++ w.extractLsb' 0 c := by
    rw [congrArg (· &&& fieldMask a b c) fields]
    simp only [fieldMask, BitVec.and_append, BitVec.and_allOnes, BitVec.ofNat_eq_ofNat, BitVec.and_zero]
  have zeros : (0 : BitVec (a + b)) = (0 : BitVec a) ++ (0 : BitVec b) := BitVec.zero_append_zero.symm
  simp only [masked, zeros, append_eq_append_iff, and_true]

/-- The 128 bits of a descriptor determine it. -/
theorem Descriptor.number_inj {d e : Descriptor} (h : d.number = e.number) : d = e := by
  obtain ⟨h321, h0⟩ := append_eq_append_iff.1 h
  obtain ⟨h32, h1⟩ := append_eq_append_iff.1 h321
  obtain ⟨h3, h2⟩ := append_eq_append_iff.1 h32
  exact Descriptor.ext_words h0 h1 h2 h3

theorem Descriptor.number_and (d m : Descriptor) :
    d.number &&& m.number =
      (Descriptor.mk (d.w0 &&& m.w0) (d.w1 &&& m.w1) (d.w2 &&& m.w2) (d.w3 &&& m.w3)).number :=
  BitVec.and_append.trans (congrArg (· ++ _) (BitVec.and_append.trans (congrArg (· ++ _) BitVec.and_append)))

/-- A row whose mask and pattern are given word by word tests each word on its own. -/
theorem fits_iff_words {row : OpcodeRow} {m p : Descriptor} (mask : row.mask = m.number)
    (pattern : row.pattern = p.number) (d : Descriptor) :
    row.fits d = true ↔ Descriptor.mk (d.w0 &&& m.w0) (d.w1 &&& m.w1) (d.w2 &&& m.w2) (d.w3 &&& m.w3) = p := by
  rw [OpcodeRow.fits, beq_iff_eq, mask, pattern, Descriptor.number_and]
  exact ⟨Descriptor.number_inj, congrArg _⟩

/-! Each row of the table tests the must-be-zero bits that the format of its command gives (30_encoding.md R75 to R84). -/

section
variable {d : Descriptor}

theorem fits_negotiate_iff : opcodeTable[0].fits d = true ↔ d.w0.extractLsb' 8 24 = 0 ∧ d.opc = opNegotiate := by
  rw [fits_iff_words (m := ⟨fieldMask 24 0 8, 0#32, 0#32, 0#32⟩)
    (p := ⟨(0 : BitVec 24) ++ opNegotiate, 0#32, 0#32, 0#32⟩) rfl rfl]
  simp only [Descriptor.mk.injEq, and_fieldMask_eq_iff 24 0 8, BitVec.and_zero, and_true, Nat.reduceAdd,
    Descriptor.opc]

theorem fits_frame_iff :
    opcodeTable[1].fits d = true ↔ (d.w0.extractLsb' 9 23 = 0 ∧ d.opc = opFrame) ∧ d.w3 = 0 := by
  rw [fits_iff_words (m := ⟨fieldMask 23 1 8, 0#32, 0#32, BitVec.allOnes 32⟩)
    (p := ⟨(0 : BitVec 24) ++ opFrame, 0#32, 0#32, 0⟩) rfl rfl]
  simp only [Descriptor.mk.injEq, and_fieldMask_eq_iff 23 1 8, BitVec.and_zero, BitVec.and_allOnes, true_and,
    Nat.reduceAdd, Descriptor.opc]

theorem fits_eos_iff : opcodeTable[2].fits d = true ↔
    (d.w0.extractLsb' 8 24 = 0 ∧ d.opc = opEos) ∧ d.w1 = 0 ∧ d.w2 = 0 ∧ d.w3 = 0 := by
  rw [fits_iff_words (m := ⟨fieldMask 24 0 8, BitVec.allOnes 32, BitVec.allOnes 32, BitVec.allOnes 32⟩)
    (p := ⟨(0 : BitVec 24) ++ opEos, 0, 0, 0⟩) rfl rfl]
  simp only [Descriptor.mk.injEq, and_fieldMask_eq_iff 24 0 8, BitVec.and_allOnes, Nat.reduceAdd, Descriptor.opc]

theorem fits_convert_iff : opcodeTable[3].fits d = true ↔
    (d.w0.extractLsb' 11 21 = 0 ∧ d.opc = opConvert) ∧ d.w1.extractLsb' 24 8 = 0 ∧ d.w2 = 0 ∧ d.w3 = 0 := by
  rw [fits_iff_words (m := ⟨fieldMask 21 3 8, fieldMask 8 24 0, BitVec.allOnes 32, BitVec.allOnes 32⟩)
    (p := ⟨(0 : BitVec 24) ++ opConvert, (0 : BitVec 32) ++ BitVec.nil, 0, 0⟩) rfl rfl]
  simp only [Descriptor.mk.injEq, and_fieldMask_eq_iff 21 3 8, and_fieldMask_eq_iff 8 24 0, BitVec.eq_nil, and_true,
    BitVec.and_allOnes, Nat.reduceAdd, Descriptor.opc]

theorem fits_wrctrl_iff : opcodeTable[4].fits d = true ↔
    (d.w0.extractLsb' 8 24 = 0 ∧ d.opc = opWrctrl) ∧ d.w1.extractLsb' 5 27 = 0 ∧ d.w2 = 0 ∧ d.w3 = 0 := by
  rw [fits_iff_words (m := ⟨fieldMask 24 0 8, fieldMask 27 5 0, BitVec.allOnes 32, BitVec.allOnes 32⟩)
    (p := ⟨(0 : BitVec 24) ++ opWrctrl, (0 : BitVec 32) ++ BitVec.nil, 0, 0⟩) rfl rfl]
  simp only [Descriptor.mk.injEq, and_fieldMask_eq_iff 24 0 8, and_fieldMask_eq_iff 27 5 0, BitVec.eq_nil, and_true,
    BitVec.and_allOnes, Nat.reduceAdd, Descriptor.opc]

theorem fits_rdreg_iff : opcodeTable[5].fits d = true ↔
    (d.w0.extractLsb' 16 16 = 0 ∧ d.opc = opRdreg) ∧ d.w1 = 0 ∧ d.w2 = 0 ∧ d.w3 = 0 := by
  rw [fits_iff_words (m := ⟨fieldMask 16 8 8, BitVec.allOnes 32, BitVec.allOnes 32, BitVec.allOnes 32⟩)
    (p := ⟨(0 : BitVec 24) ++ opRdreg, 0, 0, 0⟩) rfl rfl]
  simp only [Descriptor.mk.injEq, and_fieldMask_eq_iff 16 8 8, BitVec.and_allOnes, Nat.reduceAdd, Descriptor.opc]

theorem fits_rdmask_iff : opcodeTable[6].fits d = true ↔
    (d.w0.extractLsb' 8 24 = 0 ∧ d.opc = opRdmask) ∧ d.w2 = 0 ∧ d.w3 = 0 := by
  rw [fits_iff_words (m := ⟨fieldMask 24 0 8, 0#32, BitVec.allOnes 32, BitVec.allOnes 32⟩)
    (p := ⟨(0 : BitVec 24) ++ opRdmask, 0#32, 0, 0⟩) rfl rfl]
  simp only [Descriptor.mk.injEq, and_fieldMask_eq_iff 24 0 8, BitVec.and_zero, BitVec.and_allOnes, true_and,
    Nat.reduceAdd, Descriptor.opc]

/-! ### The reserved STD -/

/-- Only CONVERT and WRCTRL have STD bits: any other opcode is legal where its row fits. -/
theorem legal_iff_fits {row : OpcodeRow} (hrow : row ∈ opcodeTable) (hopc : d.opc = row.opc)
    (convert : row.opc ≠ opConvert) (wrctrl : row.opc ≠ opWrctrl) : d.legal = true ↔ row.fits d = true := by
  have notReserved : d.reservedStd = false := by simp [Descriptor.reservedStd, hopc, convert, wrctrl]
  rw [legal_iff_of_opc hrow hopc, notReserved]
  exact and_iff_left rfl

/-- In CONVERT the STD bits are legal exactly when they name a standard (30_encoding.md R81). -/
theorem reservedStd_convert (hopc : d.opc = opConvert) :
    d.reservedStd = false ↔ ∃ std : Standard, std.bits = d.w0.extractLsb' 8 2 := by
  have named : (∃ std : Standard, std.bits = d.w0.extractLsb' 8 2) ↔ d.w0.extractLsb' 8 2 ≠ 3 := by
    simp only [← Standard.ofBits_eq_some_iff, ← Option.ne_none_iff_exists', ne_eq,
      Machine.Standard.ofBits_eq_none_iff]
  have other : (opConvert == opWrctrl) = false := rfl
  simp [Descriptor.reservedStd, hopc, named, other]

/-- In WRCTRL the STD bits are those of the value (30_encoding.md R82). -/
theorem reservedStd_wrctrl (hopc : d.opc = opWrctrl) :
    d.reservedStd = false ↔ LegalCtrl (d.w1.extractLsb' 0 5) := by
  have std : ctrlStdBits (d.w1.extractLsb' 0 5) = d.w1.extractLsb' 2 2 :=
    BitVec.extractLsb'_extractLsb'_of_le (by decide)
  have other : (opWrctrl == opConvert) = false := rfl
  simp [Descriptor.reservedStd, hopc, std, other]

end

/-! ### The statements -/

/-- Settles O13: the opcode picks the row, its mask is the command's must-be-zero test, and STD is tested apart. -/
theorem decoderAcceptsExactlyTheLegalDescriptors : Obligations.DecoderAcceptsExactlyTheLegalDescriptors := by
  intro d
  rcases decode_cases d with ⟨hopc, e⟩ | ⟨hopc, e⟩ | ⟨hopc, e⟩ | ⟨hopc, e⟩ | ⟨hopc, e⟩ | ⟨hopc, e⟩ | ⟨hopc, e⟩ | ⟨hopc, e⟩
  · rw [e, legal_iff_fits (row := opcodeTable[0]) (by decide) hopc (by decide) (by decide), fits_negotiate_iff]
    simp [decodeNegotiate_eq_ok_iff, hopc]
  · rw [e, legal_iff_fits (row := opcodeTable[1]) (by decide) hopc (by decide) (by decide), fits_frame_iff]
    simp [decodeFrame_eq_ok_iff, hopc]
  · rw [e, legal_iff_fits (row := opcodeTable[2]) (by decide) hopc (by decide) (by decide), fits_eos_iff]
    simp [decodeEos_eq_ok_iff, hopc]
  · rw [e, legal_iff_of_opc (row := opcodeTable[3]) (by decide) hopc, fits_convert_iff, reservedStd_convert hopc]
    constructor
    · rintro ⟨i, accepted⟩
      obtain ⟨⟨hz, rest⟩, std, hstd, -⟩ := decodeConvert_eq_ok_iff.1 accepted
      exact ⟨⟨⟨hz, hopc⟩, rest⟩, std, hstd⟩
    · rintro ⟨⟨⟨hz, -⟩, rest⟩, std, hstd⟩
      exact ⟨_, decodeConvert_eq_ok_iff.2 ⟨⟨hz, rest⟩, std, hstd, rfl⟩⟩
  · rw [e, legal_iff_of_opc (row := opcodeTable[4]) (by decide) hopc, fits_wrctrl_iff, reservedStd_wrctrl hopc]
    simp [decodeWrctrl_eq_ok_iff, hopc]
  · rw [e, legal_iff_fits (row := opcodeTable[5]) (by decide) hopc (by decide) (by decide), fits_rdreg_iff]
    simp [decodeRdreg_eq_ok_iff, hopc]
  · rw [e, legal_iff_fits (row := opcodeTable[6]) (by decide) hopc (by decide) (by decide), fits_rdmask_iff]
    simp [decodeRdmask_eq_ok_iff, hopc]
  · rw [e]
    exact iff_of_false nofun (not_legal_of_opc hopc)

/-- Settles O14: each row asks for the whole opcode byte, and no two rows for the same one. -/
theorem opcodeRowsAreDisjoint : Obligations.OpcodeRowsAreDisjoint := by
  intro d
  refine opcodeTable_opc_ne.imp_of_mem fun ha hb ne ⟨fitsA, fitsB⟩ => ne ?_
  exact (opc_eq_of_fits ha fitsA).symm.trans (opc_eq_of_fits hb fitsB)

end Sys2Proof
end

