-- ==== Sys2Proof/Proofs/CommandResponse.lean ====
section
/-! From the command port to the response port: which step runs a command and which waits (30_encoding.md R70, R90), the
responses a command can give (R78, R80), said once for all commands, and the response as a descriptor (R78). -/

namespace Sys2Proof.Machine

/-! ### The command port -/

/-- Settles O7: the whole descriptor is taken as the command, and the decoder accepts it. -/
theorem stepRunsTheDecodedCommand : Obligations.StepRunsTheDecodedCommand := by
  intro s bytes buffer rest d i hhost hbytes hdecode
  simp only [step, State.takeMove_command hhost hbytes, hdecode]
  rfl

/-- Settles O9: fewer than sixteen bytes hold no descriptor, so the move only adds to the port. -/
theorem partialDescriptorWaits : Obligations.PartialDescriptorWaits := by
  intro s bytes buffer rest hhost hshort
  have none : descriptorOfBytes (s.port ++ bytes) = none := (descriptorOfBytes_eq_none_iff _).2 hshort
  simp only [step, State.takeMove, hhost, none]
  rfl

/-! ### The responses of the commands -/

theorem negotiateError_ne_ok {maskCap w h : Nat} {num den : Int} : negotiateError maskCap w h num den ≠ some .ok := by
  unfold negotiateError
  repeat' split
  all_goals simp

/-- `Answer i r`: the command `i` can give the response `r`. -/
inductive Answer : Instr → Response → Prop
  | rejected (i : Instr) (code : Status) (notOk : code ≠ .ok) (notFrame : ∀ len wr, i ≠ .frame len wr)
      (notEos : i ≠ .eos) : Answer i ⟨code, false, false, .noReason, i.opcode, 0⟩
  | negotiated (w h : BitVec 16) (num den : BitVec 32) :
      Answer (.negotiate w h num den) ⟨.ok, true, false, .noReason, opNegotiate, 0⟩
  | passed (len : BitVec 64) (wr : Bool) (reason : Reason) (data : BitVec 64) :
      Answer (.frame len wr) ⟨.ok, true, false, reason, opFrame, data⟩
  | drawn (len : BitVec 64) (wr : Bool) (data : BitVec 64) :
      Answer (.frame len wr) ⟨.ok, true, true, .noReason, opFrame, data⟩
  | ended : Answer .eos ⟨.ok, true, false, .noReason, opEos, 0⟩
  | done (i : Instr) (data : BitVec 64) (notNegotiate : ∀ w h num den, i ≠ .negotiate w h num den)
      (notFrame : ∀ len wr, i ≠ .frame len wr) (notEos : i ≠ .eos) :
      Answer i ⟨.ok, false, false, .noReason, i.opcode, data⟩

/-- A command that answers leaves one of these on the response port. -/
theorem exec_answer {i : Instr} {s t : State} (h : exec i s = .next t) : ∃ r, t.rsp = some r ∧ Answer i r := by
  cases i with
  | negotiate w h' num den =>
    rw [exec_negotiate] at h
    rcases execNegotiate_cases w h' num den s with ⟨code, failed, e⟩ | ⟨-, ⟨std, -, e⟩ | ⟨-, e⟩⟩
    · cases e.symm.trans h
      exact ⟨_, rfl, .rejected _ code (fun ok => negotiateError_ne_ok (ok ▸ failed)) nofun nofun⟩
    · cases e.symm.trans h
      exact ⟨_, rfl, .negotiated w h' num den⟩
    · cases e.symm.trans h
  | frame len wr =>
    rw [exec_frame, execFrame_eq_next_iff] at h
    cases h with
    | passed reason => exact ⟨_, rfl, .passed len wr reason _⟩
    | drawn => exact ⟨_, rfl, .drawn len wr _⟩
  | eos =>
    rw [exec_eos, execEos_eq] at h
    cases h
    exact ⟨_, rfl, .ended⟩
  | convert r g b std rng =>
    rw [exec_convert, execConvert_eq] at h
    cases h
    exact ⟨_, rfl, .done _ _ nofun nofun nofun⟩
  | wrctrl value =>
    rw [exec_wrctrl] at h
    rcases execWrctrl_cases value s with ⟨-, e⟩ | ⟨-, e⟩
    · cases e.symm.trans h
      exact ⟨_, rfl, .done _ _ nofun nofun nofun⟩
    · cases e.symm.trans h
      exact ⟨_, rfl, .rejected _ _ nofun nofun nofun⟩
  | rdreg idx =>
    rw [exec_rdreg] at h
    rcases execRdreg_cases idx s with ⟨-, e⟩ | ⟨value, -, e⟩
    · cases e.symm.trans h
      exact ⟨_, rfl, .rejected _ _ nofun nofun nofun⟩
    · cases e.symm.trans h
      exact ⟨_, rfl, .done _ _ nofun nofun nofun⟩
  | rdmask cell =>
    rw [exec_rdmask] at h
    rcases execRdmask_cases cell s with ⟨-, e⟩ | ⟨-, -, ⟨-, e⟩ | ⟨inside, -, e⟩⟩
    · cases e.symm.trans h
      exact ⟨_, rfl, .rejected _ _ nofun nofun nofun⟩
    · cases e.symm.trans h
    · cases e.symm.trans h
      exact ⟨_, rfl, .done _ _ nofun nofun nofun⟩

/-- Settles O50: each response of a command has its opcode, and the fields R78 leaves it. -/
theorem everyCommandAnswersOnce : Obligations.EveryCommandAnswersOnce := by
  intro i s t h
  obtain ⟨r, hr, answer⟩ := exec_answer h
  refine ⟨r, hr, ?_⟩
  cases answer with
  | rejected => exact ⟨rfl, fun _ => ⟨rfl, rfl, rfl, rfl⟩, nofun, fun reason => absurd rfl reason⟩
  | negotiated => exact ⟨rfl, fun error => absurd rfl error, nofun, fun reason => absurd rfl reason⟩
  | passed len wr => exact ⟨rfl, fun error => absurd rfl error, nofun, fun _ => ⟨rfl, len, wr, rfl⟩⟩
  | drawn len wr =>
    exact ⟨rfl, fun error => absurd rfl error, fun _ => ⟨rfl, len, wr, rfl⟩, fun reason => absurd rfl reason⟩
  | ended => exact ⟨rfl, fun error => absurd rfl error, nofun, fun reason => absurd rfl reason⟩
  | done => exact ⟨rfl, fun error => absurd rfl error, nofun, fun reason => absurd rfl reason⟩

/-- Settles O51: FWD of each response of a command. -/
theorem forwardFlagFollowsTheCommand : Obligations.ForwardFlagFollowsTheCommand := by
  intro i s t r h hr
  obtain ⟨r', hr', answer⟩ := exec_answer h
  cases hr.symm.trans hr'
  cases answer with
  | rejected _ code notOk notFrame notEos =>
    refine iff_of_false nofun ?_
    rintro (⟨len, wr, frame⟩ | eos | ⟨_, _, _, _, -, ok⟩)
    · exact notFrame len wr frame
    · exact notEos eos
    · exact notOk ok
  | negotiated w height num den => exact iff_of_true rfl (.inr (.inr ⟨w, height, num, den, rfl, rfl⟩))
  | passed len wr => exact iff_of_true rfl (.inl ⟨len, wr, rfl⟩)
  | drawn len wr => exact iff_of_true rfl (.inl ⟨len, wr, rfl⟩)
  | ended => exact iff_of_true rfl (.inr (.inl rfl))
  | done _ data notNegotiate notFrame notEos =>
    refine iff_of_false nofun ?_
    rintro (⟨len, wr, frame⟩ | eos | ⟨w, height, num, den, negotiate, -⟩)
    · exact notFrame len wr frame
    · exact notEos eos
    · exact notNegotiate w height num den negotiate

/-! ### The response as a descriptor -/

/-- Settles O52: each field is the part of the concatenation that stands at its bits. -/
theorem responseDescriptorLayout : Obligations.ResponseDescriptorLayout := by
  refine ⟨fun r => ?_, fun st => by cases st <;> rfl, fun reason => by cases reason <;> rfl⟩
  have fwd : r.descriptor.w0.getLsbD 8 = r.fwd := by
    simp only [Response.descriptor, BitVec.getLsbD_append]
    simp
  have drawn : r.descriptor.w0.getLsbD 9 = r.drawn := by
    simp only [Response.descriptor, BitVec.getLsbD_append]
    simp
  refine ⟨?_, fwd, drawn, ?_⟩
  all_goals simp (disch := decide) only [Response.descriptor, extract_append_low, extract_append_high,
    Nat.reduceSub, extract_zero, extract_whole, and_self]

end Sys2Proof.Machine
end

