-- ==== Sys2Proof/Proofs/AssembledLines.lean ====
section
/-! What a line of the textual form assembles to (30_encoding.md R88, R89): the words made by shifts are the encoding of
the instruction the line names. -/

namespace Sys2Proof.Machine

/-! ### Words made by shifts -/

/-- A number that fits a field is that field, widened to a word. -/
theorem word_ofNat_eq_setWidth {k n : Nat} (hk : k ≤ 32) (hn : n < 2 ^ k) :
    BitVec.ofNat 32 n = (BitVec.ofNat k n).setWidth 32 :=
  (BitVec.setWidth_ofNat_of_le_of_lt hk hn).symm

/-- A field of a number that fits is the number's quotient. -/
theorem extract_ofNat {k n : Nat} (hn : n < 2 ^ k) (lo m : Nat) :
    (BitVec.ofNat k n).extractLsb' lo m = BitVec.ofNat m (n / 2 ^ lo) := by
  apply BitVec.eq_of_toNat_eq
  rw [BitVec.extractLsb'_toNat, BitVec.toNat_ofNat, BitVec.toNat_ofNat, Nat.mod_eq_of_lt hn, Nat.shiftRight_eq_div_pow]

/-- Zeros above a field only widen it. -/
theorem zero_append_eq_setWidth {a b : Nat} (x : BitVec b) : (0 : BitVec a) ++ x = x.setWidth (a + b) := by
  rw [← BitVec.setWidth_eq ((0 : BitVec a) ++ x), BitVec.setWidth_append_eq_shiftLeft_setWidth_or]
  simp

theorem append_eq_or_shiftLeft {a b : Nat} (x : BitVec a) (y : BitVec b) :
    x ++ y = y.setWidth (a + b) ||| x.setWidth (a + b) <<< b := by
  rw [← BitVec.setWidth_eq (x ++ y), BitVec.setWidth_append_eq_shiftLeft_setWidth_or, BitVec.or_comm]

theorem zero_append_append_eq_or {a b c : Nat} (x : BitVec b) (y : BitVec c) :
    (0 : BitVec a) ++ x ++ y = y.setWidth (a + b + c) ||| x.setWidth (a + b + c) <<< c := by
  rw [← BitVec.setWidth_eq ((0 : BitVec a) ++ x ++ y),
    BitVec.setWidth_append_append_eq_shiftLeft_setWidth_or, BitVec.or_comm]
  simp

theorem zero_append_append_append_eq_or {a b c e : Nat} (x : BitVec b) (y : BitVec c) (z : BitVec e) :
    (0 : BitVec a) ++ x ++ y ++ z =
      z.setWidth (a + b + c + e) ||| y.setWidth (a + b + c + e) <<< e ||| x.setWidth (a + b + c + e) <<< (c + e) := by
  rw [← BitVec.setWidth_eq ((0 : BitVec a) ++ x ++ y ++ z),
    BitVec.setWidth_append_append_append_eq_shiftLeft_setWidth_or]
  simp only [BitVec.ofNat_eq_ofNat, BitVec.setWidth_zero, BitVec.zero_shiftLeft, BitVec.zero_or]
  ac_rfl

/-! ### The instruction of a line -/

/-- The instruction a line names, unless it is RAW or a pseudo-command. -/
def AsmLine.instr : AsmLine → Option Instr
  | .negotiate w h num den =>
    some (.negotiate (BitVec.ofNat 16 w) (BitVec.ofNat 16 h) (BitVec.ofInt 32 num) (BitVec.ofInt 32 den))
  | .frame len wr => some (.frame (BitVec.ofNat 64 len) (wr == 1))
  | .eos => some .eos
  | .convert r g b std rng => some (.convert (BitVec.ofNat 8 r) (BitVec.ofNat 8 g) (BitVec.ofNat 8 b) std rng)
  | .wrctrl silent showBit std rng =>
    some (.wrctrl (rng.bit ++ std.bits ++ BitVec.ofNat 1 showBit ++ BitVec.ofNat 1 silent))
  | .rdreg idx => some (.rdreg (BitVec.ofNat 8 idx))
  | .rdmask cell => some (.rdmask (BitVec.ofNat 32 cell))
  | _ => none

/-- Every line but RAW expands to a line that names an instruction (30_encoding.md R89). -/
theorem AsmLine.exists_expand_instr {line : AsmLine} (notRaw : ∀ w0 w1 w2 w3, line ≠ .raw w0 w1 w2 w3) :
    ∃ i, line.expand.instr = some i := by
  cases line with
  | raw w0 w1 w2 w3 => exact absurd rfl (notRaw w0 w1 w2 w3)
  | negotiate | frame | eos | convert | wrctrl | rdreg | rdmask | negotiateFps | convertRed | rdmaskAt => exact ⟨_, rfl⟩

theorem legalCtrl_fields (silent showBit : BitVec 1) (std : Standard) (rng : Range) :
    LegalCtrl (rng.bit ++ std.bits ++ showBit ++ silent) := by
  have bits : ctrlStdBits (rng.bit ++ std.bits ++ showBit ++ silent) = std.bits := by
    simp (disch := decide) only [ctrlStdBits, extract_append_low, extract_append_high, Nat.reduceSub, extract_whole]
  rw [LegalCtrl, bits]
  cases std <;> decide

theorem AsmLine.wellFormed_of_instr {line : AsmLine} {i : Instr} (h : line.instr = some i) : i.wellFormed = true := by
  cases line with
  | wrctrl silent showBit std rng =>
    cases h
    exact decide_eq_true (legalCtrl_fields _ _ std rng)
  | negotiate | frame | eos | convert | rdreg | rdmask =>
    cases h
    rfl
  | raw | negotiateFps | convertRed | rdmaskAt => cases h

/-- The words of a line in range are the encoding of its instruction (30_encoding.md R88). -/
theorem AsmLine.encode_instr {line : AsmLine} {i : Instr} (h : line.instr = some i) (fits : line.inRange = true) :
    encode i = line.words := by
  cases line with
  | negotiate w h num den =>
    cases h
    simp only [AsmLine.inRange, Bool.and_eq_true, decide_eq_true_eq] at fits
    obtain ⟨⟨⟨hw, hh⟩, -⟩, -⟩ := fits
    refine Descriptor.ext_words (zero_append_eq_setWidth _) ?_ rfl rfl
    rw [AsmLine.words, word_ofNat_eq_setWidth (k := 16) (by decide) hw,
      word_ofNat_eq_setWidth (k := 16) (by decide) hh]
    exact append_eq_or_shiftLeft _ _
  | frame len wr =>
    cases h
    simp only [AsmLine.inRange, Bool.and_eq_true, decide_eq_true_eq] at fits
    obtain ⟨hlen, hwr⟩ := fits
    have flag : BitVec.ofNat 32 wr = (BitVec.ofBool (wr == 1)).setWidth 32 := by
      match wr, hwr with
      | 0, _ | 1, _ => rfl
    refine Descriptor.ext_words ?_ ?_ (extract_ofNat hlen 32 32) rfl
    · rw [AsmLine.words, flag]
      exact zero_append_append_eq_or _ _
    · exact (extract_ofNat hlen 0 32).trans (congrArg _ (Nat.div_one len))
  | eos =>
    cases h
    rfl
  | convert r g b std rng =>
    cases h
    simp only [AsmLine.inRange, Bool.and_eq_true, decide_eq_true_eq] at fits
    obtain ⟨⟨hr, hg⟩, hb⟩ := fits
    refine Descriptor.ext_words (zero_append_append_append_eq_or _ _ _) ?_ rfl rfl
    rw [AsmLine.words, word_ofNat_eq_setWidth (k := 8) (by decide) hr,
      word_ofNat_eq_setWidth (k := 8) (by decide) hg,
      word_ofNat_eq_setWidth (k := 8) (by decide) hb]
    exact zero_append_append_append_eq_or _ _ _
  | wrctrl silent showBit std rng =>
    cases h
    simp only [AsmLine.inRange, Bool.and_eq_true, decide_eq_true_eq] at fits
    obtain ⟨hsilent, hshow⟩ := fits
    refine Descriptor.ext_words (zero_append_eq_setWidth _) ?_ rfl rfl
    rw [AsmLine.words, word_ofNat_eq_setWidth (k := 1) (by decide) hsilent,
      word_ofNat_eq_setWidth (k := 1) (by decide) hshow]
    refine (zero_append_eq_setWidth _).trans ?_
    rw [BitVec.setWidth_append_append_append_eq_shiftLeft_setWidth_or]
    ac_rfl
  | rdreg idx =>
    cases h
    have hidx : idx < 256 := of_decide_eq_true fits
    refine Descriptor.ext_words ?_ rfl rfl rfl
    rw [AsmLine.words, word_ofNat_eq_setWidth (k := 8) (by decide) hidx]
    exact zero_append_append_eq_or _ _
  | rdmask cell =>
    cases h
    rfl
  | raw | negotiateFps | convertRed | rdmaskAt => cases h

/-- Settles O53: every line but RAW names an instruction, and its words are that instruction's encoding. -/
theorem assemblerProducesOnlyLegalCommands : Obligations.AssemblerProducesOnlyLegalCommands := by
  intro line d notRaw assembled
  obtain ⟨i, hi⟩ := AsmLine.exists_expand_instr notRaw
  obtain ⟨fits, words⟩ := Option.ite_none_right_eq_some.1 assembled
  have encoded : encode i = d := (AsmLine.encode_instr hi fits).trans (Option.some.inj words)
  have wf := AsmLine.wellFormed_of_instr hi
  exact ⟨(decoderAcceptsExactlyTheLegalDescriptors d).1 ⟨i, encoded ▸ decode_encode wf⟩, i, wf, encoded⟩

end Sys2Proof.Machine
end

