-- ==== Sys2Proof/Proofs/NegotiateAnswer.lean ====
section
/-! The two ways NEGOTIATE answers (40_disc_rasterizer.md R100): a format that fails a check is rejected with the code
of the first one, an accepted one is installed; and the statements that follow from the answer alone. -/

namespace Sys2Proof.Machine

/-! ### The two answers -/

section
variable {s : State} {w h : BitVec 16} {num den : BitVec 32}

/-- A failing check releases the configuration and rejects with its code (40_disc_rasterizer.md R110). -/
theorem exec_negotiate_rejected {code : Status}
    (failed : negotiateError s.cfg.maskCap w.toNat h.toNat num.toInt den.toInt = some code) :
    exec (.negotiate w h num den) s = .next (s.release.reject opNegotiate code) := by
  rw [exec_negotiate, execNegotiate, signed, signed, failed]

/-- An accepted format is installed with the colour of the present CTRL (40_disc_rasterizer.md R111, R112). -/
theorem exec_negotiate_installed {std : Standard}
    (accepted : AcceptedFormat s.cfg.maskCap w.toNat h.toNat num.toInt den.toInt) (standard : s.standard = some std) :
    exec (.negotiate w h num den) s =
      .next ((s.install w h (frameRate num den) (overlayColor std s.range)).respond
        opNegotiate .ok true false .noReason 0) := by
  rw [exec_negotiate, execNegotiate, signed, signed, (negotiateError_eq_none_iff ..).2 accepted, standard]

end

/-! ### The first failing check -/

section
variable {maskCap w h : Nat} {num den : Int}

theorem negotiateError_errDim (small : w < 64 ∨ h < 64) : negotiateError maskCap w h num den = some .errDim :=
  if_pos small

/-- A format of legal size is judged by the checks after the first (40_disc_rasterizer.md R101). -/
theorem negotiateError_of_dims (hw : 64 ≤ w) (hh : 64 ≤ h) :
    negotiateError maskCap w h num den =
      if den ≤ 0 then some .errFraction
      else if num < den then some .errRate
      else if maskCap < w / 32 * (w / 32) then some .errNomem
      else if 3 * w * h / 2 < footEnd w h then some .errGeometry
      else none :=
  if_neg (show ¬ (w < 64 ∨ h < 64) by omega)

theorem negotiateError_errFraction (hw : 64 ≤ w) (hh : 64 ≤ h) (den_neg : den ≤ 0) :
    negotiateError maskCap w h num den = some .errFraction := by
  rw [negotiateError_of_dims hw hh, if_pos den_neg]

theorem negotiateError_errRate (hw : 64 ≤ w) (hh : 64 ≤ h) (den_pos : 1 ≤ den) (slow : num < den) :
    negotiateError maskCap w h num den = some .errRate := by
  rw [negotiateError_of_dims hw hh, if_neg (by omega), if_pos slow]

theorem negotiateError_errNomem (hw : 64 ≤ w) (hh : 64 ≤ h) (den_pos : 1 ≤ den) (rate_ok : den ≤ num)
    (large : maskCap < w / 32 * (w / 32)) : negotiateError maskCap w h num den = some .errNomem := by
  rw [negotiateError_of_dims hw hh, if_neg (by omega), if_neg (by omega), if_pos large]

theorem negotiateError_errGeometry (hw : 64 ≤ w) (hh : 64 ≤ h) (den_pos : 1 ≤ den) (rate_ok : den ≤ num)
    (mask_fits : w / 32 * (w / 32) ≤ maskCap) (outside : 3 * w * h / 2 < footEnd w h) :
    negotiateError maskCap w h num den = some .errGeometry := by
  rw [negotiateError_of_dims hw hh, if_neg (by omega), if_neg (by omega), if_neg (Nat.not_lt.2 mask_fits),
    if_pos outside]

end

/-- Settles O18: each clause names the first failing check, and the rejection is the released state with the code. -/
theorem negotiateRejectsInOrder : Obligations.NegotiateRejectsInOrder := by
  intro s w h num den rejected d
  refine ⟨fun small => exec_negotiate_rejected (negotiateError_errDim small), fun hw hh => ⟨fun den_neg => ?_,
    fun den_pos => ⟨fun slow => ?_, fun rate_ok => ⟨fun large => ?_, fun mask_fits outside => ?_⟩⟩⟩⟩
  · exact exec_negotiate_rejected (negotiateError_errFraction hw hh den_neg)
  · exact exec_negotiate_rejected (negotiateError_errRate hw hh den_pos slow)
  · exact exec_negotiate_rejected (negotiateError_errNomem hw hh den_pos rate_ok large)
  · exact exec_negotiate_rejected (negotiateError_errGeometry hw hh den_pos rate_ok mask_fits outside)

/-! ### What NEGOTIATE neither writes nor reads -/

/-- Settles O25: NEGOTIATE is neither FRAME nor WRCTRL, and only those reach CTRL, COUNTER and frame space (O48). -/
theorem negotiateKeepsEverythingElse : Obligations.NegotiateKeepsEverythingElse := by
  intro s t w h num den hexec
  obtain ⟨notFrame, -, notWrctrl, -, port, cfg, host⟩ := stateIsWrittenOnlyByItsOwners _ s t hexec
  obtain ⟨frame, counter⟩ := notFrame nofun
  exact ⟨notWrctrl nofun, counter, port, cfg, host, fun a => congrArg (Memory.read · a) frame⟩

/-- Settles O26: which answer is given, and all that it writes, is a function of the operands, CTRL and MASK_CAP. -/
theorem renegotiationForgetsTheOldFormat : Obligations.RenegotiationForgetsTheOldFormat := by
  intro s₁ s₂ t₁ t₂ w h num den ctrl cfg exec₁ exec₂
  have standard : s₁.standard = s₂.standard := congrArg (Standard.ofBits <| ctrlStdBits ·) ctrl
  have range : s₁.range = s₂.range := congrArg (Range.ofBit <| BitVec.extractLsb' 4 1 ·) ctrl
  rw [exec_negotiate] at exec₁
  rcases execNegotiate_cases w h num den s₁ with ⟨code, failed, e₁⟩ | ⟨accepted, ⟨std, hstd, e₁⟩ | ⟨-, e₁⟩⟩
  · cases e₁.symm.trans exec₁
    cases (exec_negotiate_rejected (cfg ▸ failed)).symm.trans exec₂
    exact ⟨rfl, rfl, rfl, rfl, rfl, rfl, rfl, rfl, rfl, rfl, rfl, rfl, rfl⟩
  · cases e₁.symm.trans exec₁
    cases (exec_negotiate_installed (cfg ▸ accepted) (standard ▸ hstd)).symm.trans exec₂
    exact ⟨rfl, rfl, rfl, rfl, rfl, rfl, rfl, rfl, rfl, congrArg (overlayColor std) range, rfl, rfl, rfl⟩
  · cases e₁.symm.trans exec₁

end Sys2Proof.Machine
end

