-- ==== Sys2Proof/Proofs/NegotiatedGeometry.lean ====
section
/-! What an accepted NEGOTIATE installs, as the values of the registers (40_disc_rasterizer.md R102, R104 to R107), and
when the footprint check passes (R108, R115). -/

namespace Sys2Proof.Machine

/-! ### The geometry of a configured state -/

section
variable {s : State} (configured : s.Configured)
include configured

theorem State.Configured.diam_range : 2 ≤ s.diam.toNat ∧ s.diam.toNat ≤ 2047 := by
  obtain ⟨width_ok, -, -, -, diam_eq, -⟩ := configured
  have width_lt := s.width.isLt
  omega

theorem State.Configured.radius_range : 1 ≤ s.radius.toNat ∧ s.radius.toNat ≤ 1023 := by
  obtain ⟨diam_least, diam_most⟩ := configured.diam_range
  obtain ⟨-, -, -, -, -, radius_eq, -⟩ := configured
  omega

/-- UOFF is VOFF and one quarter of the luma samples (40_disc_rasterizer.md R105, R106). -/
theorem State.Configured.uoff_eq_voff_add :
    s.uoff.toNat = s.voff.toNat + s.width.toNat * s.height.toNat / 4 := by
  obtain ⟨-, -, -, -, -, -, -, -, uoff_eq, voff_eq, -⟩ := configured
  omega

/-- Without a remainder MINLEN is three halves of the luma samples (40_disc_rasterizer.md R107). -/
theorem State.Configured.two_mul_minlen (even : s.width.toNat * s.height.toNat % 2 = 0) :
    2 * s.minlen.toNat = 3 * s.width.toNat * s.height.toNat := by
  obtain ⟨-, -, -, -, -, -, -, -, -, -, minlen_eq, -⟩ := configured
  rw [minlen_eq, Nat.mul_assoc]
  omega

/-- With an even width VOFF is R rows and R columns into the first chroma plane (40_disc_rasterizer.md R106). -/
theorem State.Configured.voff_eq_of_even (even : s.width.toNat % 2 = 0) :
    s.voff.toNat =
      s.width.toNat * s.height.toNat + s.radius.toNat * (s.width.toNat / 2) + s.radius.toNat := by
  obtain ⟨-, -, -, -, -, -, -, -, -, voff_eq, -⟩ := configured
  rw [voff_eq, even_mul_div_two even]

/-- With even sizes UOFF is R rows and R columns into the second chroma plane (40_disc_rasterizer.md R105). -/
theorem State.Configured.uoff_eq_of_even (width_even : s.width.toNat % 2 = 0) (height_even : s.height.toNat % 2 = 0) :
    s.uoff.toNat = s.width.toNat * s.height.toNat + s.width.toNat / 2 * (s.height.toNat / 2) +
      s.radius.toNat * (s.width.toNat / 2) + s.radius.toNat := by
  have size := four_mul_chroma_size width_even height_even
  rw [configured.uoff_eq_voff_add, configured.voff_eq_of_even width_even, ← size, Nat.mul_comm (s.width.toNat / 2)]
  omega

end

/-- Settles O16: the installed state is configured, and a configured state has this geometry. -/
theorem negotiateInstallsTheGeometry : Obligations.NegotiateInstallsTheGeometry := by
  intro s w h num den accepted legal
  obtain ⟨std, standard⟩ := State.exists_standard legal
  refine ⟨_, exec_negotiate_installed accepted standard, rfl, rfl, ?_⟩
  have configured := State.install_configured accepted std s.range
  obtain ⟨diam_least, diam_most⟩ := configured.diam_range
  obtain ⟨radius_least, radius_most⟩ := configured.radius_range
  have lines := configured
  obtain ⟨-, -, -, -, diam_eq, radius_eq, -, loff_eq, uoff_eq, voff_eq, minlen_eq, -⟩ := lines
  exact ⟨diam_eq, radius_eq, diam_least, diam_most, radius_least, radius_most, loff_eq, uoff_eq, voff_eq,
    configured.uoff_eq_voff_add, minlen_eq, configured.two_mul_minlen, configured.voff_eq_of_even,
    configured.uoff_eq_of_even⟩

/-- Settles O24: DIAM, RADIUS and MASK are functions of the block of the width. -/
theorem maskDependsOnTheWidthBlockOnly : Obligations.MaskDependsOnTheWidthBlockOnly := by
  intro s₁ s₂ w₁ h₁ w₂ h₂ num₁ den₁ num₂ den₂ accepted₁ legal₁ accepted₂ legal₂ block
  obtain ⟨std₁, standard₁⟩ := State.exists_standard legal₁
  obtain ⟨std₂, standard₂⟩ := State.exists_standard legal₂
  have diam : diameter w₁.toNat = diameter w₂.toNat := block
  refine ⟨_, _, exec_negotiate_installed accepted₁ standard₁, exec_negotiate_installed accepted₂ standard₂, ?_⟩
  exact ⟨congrArg (BitVec.ofNat 11) diam, congrArg (fun d => BitVec.ofNat 10 (d / 2)) diam, congrArg rasterize diam⟩

/-! ### The footprint -/

section
variable {w h : Nat}

theorem two_le_diameter (hw : 64 ≤ w) : 2 ≤ diameter w :=
  (Nat.le_div_iff_mul_le (show 0 < 32 by decide)).2 hw

/-- The last luma address of the box is sample (2 D - 1, 2 D - 1) (40_disc_rasterizer.md R104, R108). -/
theorem lumaLast_eq (hw : 64 ≤ w) : lumaLast w = (2 * diameter w - 1) * w + (2 * diameter w - 1) := by
  have diam_least := two_le_diameter hw
  have last : 2 * diameter w - 1 = diameter w + (diameter w - 1) := by omega
  rw [lumaLast, lumaOffset, Nat.mul_comm w, last, Nat.add_mul]
  omega

/-- In a format of at least 2 D - 1 rows the luma box ends inside the frame. -/
theorem lumaLast_lt_leastLength (hw : 64 ≤ w) (tall : 2 * diameter w - 1 ≤ h) : lumaLast w < leastLength w h := by
  have diam_least := two_le_diameter hw
  have rows := Nat.mul_le_mul_right w tall
  have columns := Nat.mul_le_mul_left h hw
  rw [lumaLast_eq hw, leastLength, Nat.mul_assoc, Nat.mul_comm w]
  omega

/-- What `q` truncated halves of a row lose. -/
theorem mul_half_bounds (w q : Nat) : 2 * (q * (w / 2)) ≤ w * q ∧ w * q ≤ 2 * (q * (w / 2)) + q := by
  rw [Nat.mul_left_comm, Nat.mul_comm w, ← Nat.mul_add_one]
  exact ⟨Nat.mul_le_mul_left q (by omega), Nat.mul_le_mul_left q (by omega)⟩

/-- The chroma box ends inside the frame exactly in a format of at least 2 D - 1 rows: its last address is near
w * h + w * h / 4 + w * (D - 1) / 2 + D, with losses to the truncating divisions that do not reach one row. -/
theorem chromaLast_lt_leastLength_iff (hw : 64 ≤ w) (hh : 64 ≤ h) :
    chromaLast w h < leastLength w h ↔ 2 * diameter w - 1 ≤ h := by
  have diam_least := two_le_diameter hw
  have diam_le : 32 * diameter w ≤ w := Nat.mul_div_le w 32
  have rest : (diameter w - 1) / 2 = diameter w - 1 - diameter w / 2 := by omega
  have rows : w * (diameter w / 2) + w * ((diameter w - 1) / 2) = w * (diameter w - 1) := by
    rw [← Nat.mul_add, rest, Nat.add_sub_cancel' (by omega)]
  have lost := mul_half_bounds w ((diameter w - 1) / 2)
  rw [chromaLast, uOffset, radius, leastLength, Nat.mul_assoc 3]
  constructor
  · intro inside
    refine Nat.le_of_not_lt fun low => ?_
    have samples := Nat.mul_le_mul_left w (show h ≤ 2 * (diameter w - 1) by omega)
    rw [Nat.mul_left_comm] at samples
    omega
  · intro tall
    have samples := Nat.mul_le_mul_left w (show 2 * (diameter w - 1) + 1 ≤ h by omega)
    rw [Nat.mul_add_one, Nat.mul_left_comm] at samples
    omega

/-- The footprint fits exactly when the chroma box does (40_disc_rasterizer.md R115). -/
theorem footEnd_le_leastLength_iff (hw : 64 ≤ w) (hh : 64 ≤ h) :
    footEnd w h ≤ leastLength w h ↔ 2 * diameter w - 1 ≤ h := by
  rw [← chromaLast_lt_leastLength_iff hw hh, footEnd, Nat.one_add_le_iff, Nat.max_lt]
  exact and_iff_right_of_imp fun chroma =>
    lumaLast_lt_leastLength hw ((chromaLast_lt_leastLength_iff hw hh).1 chroma)

end

/-- Settles O19: and a width of at most 1055 gives a diameter of at most 32, so that 64 rows are enough. -/
theorem footprintPassesExactlyForTallFormats : Obligations.FootprintPassesExactlyForTallFormats := by
  intro w h hw _ hh _
  have fits_iff : footEnd w h ≤ 3 * w * h / 2 ↔ 2 * (w / 32) - 1 ≤ h := footEnd_le_leastLength_iff hw hh
  exact ⟨fits_iff, fun narrow => fits_iff.2 (by omega)⟩

end Sys2Proof.Machine
end

