-- ==== Sys2Proof/Proofs/NegotiatedMask.lean ====
section
/-! The mask an accepted NEGOTIATE installs: its closed form and the symmetries read off it (40_disc_rasterizer.md
R113), and that the document's loops leave it (R103). -/

namespace Sys2Proof.Machine

/-- Settles O21: the installed mask is the rasterizer's, which holds the closed form. -/
theorem negotiateMaskClosedForm : Obligations.NegotiateMaskClosedForm := by
  intro s w h num den accepted legal
  obtain ⟨std, standard⟩ := State.exists_standard legal
  exact ⟨_, exec_negotiate_installed accepted standard, holdsDisc_rasterize _⟩

/-! ### The closed form -/

section
variable {r h w : Nat}

theorem closedDisc_eq_true_iff :
    closedDisc r (h, w) = true ↔ ((w : Int) - r) ^ 2 + ((h : Int) - r) ^ 2 < (r : Int) ^ 2 :=
  decide_eq_true_iff

theorem closedDisc_swap : closedDisc r (w, h) = closedDisc r (h, w) := by
  simp only [closedDisc, Int.add_comm]

/-- Row 2 R - h is the mirror image of row h in row R. -/
theorem closedDisc_mirror_row (hh : h ≤ 2 * r) : closedDisc r (2 * r - h, w) = closedDisc r (h, w) := by
  have mirror : ((2 * r - h : Nat) : Int) - r = -((h : Int) - r) := by omega
  simp only [closedDisc, mirror, sq_eq_mul_self, Int.neg_mul_neg]

/-- The inside cells lie in rows 1 .. 2 R - 1: elsewhere the row alone is R away from the centre. -/
theorem row_of_closedDisc (inside : closedDisc r (h, w) = true) : 1 ≤ h ∧ h ≤ 2 * r - 1 := by
  rw [closedDisc_eq_true_iff] at inside
  have column : 0 ≤ ((w : Int) - r) ^ 2 := Int.sq_nonneg _
  have near : ¬ (r : Int) ^ 2 ≤ ((h : Int) - r) ^ 2 := by omega
  have not_first : h ≠ 0 := by
    rintro rfl
    refine near (Int.le_of_eq ?_)
    rw [sq_eq_mul_self, sq_eq_mul_self, Int.natCast_zero, Int.zero_sub, Int.neg_mul_neg]
  have not_far : ¬ 2 * r ≤ h := fun far => near (sq_radius_le far)
  omega

/-- The cell of column R in row 1 is inside: it is R - 1 away from the centre. -/
theorem closedDisc_one_radius (hr : 1 ≤ r) : closedDisc r (1, r) = true := by
  have expanded : (((1 : Nat) : Int) - r) ^ 2 = (r : Int) ^ 2 - 2 * r + 1 := by grind
  rw [closedDisc_eq_true_iff, expanded, Int.sub_self]
  omega

end

/-! ### The symmetries of the mask -/

section
variable {d h w : Nat}

/-- Cell h * D + w of the mask holds the closed form (40_disc_rasterizer.md R113). -/
theorem rasterize_cell (hh : h < d) (hw : w < d) : (rasterize d)[h * d + w]? = some (closedDisc (d / 2) (h, w)) := by
  rw [rasterize_getElem? hh hw, rasterValue_eq_closedDisc]

/-- A row that is not one of 1 .. 2 R - 1 is empty. -/
theorem rasterize_row_empty (hh : h < d) (hw : w < d) (outer : h = 0 ∨ 2 * (d / 2) ≤ h) :
    (rasterize d)[h * d + w]? = some false := by
  rw [rasterize_cell hh hw, Option.some_inj, Bool.eq_false_iff]
  intro inside
  have := row_of_closedDisc inside
  omega

/-- A column that is not one of 1 .. 2 R - 1 is empty. -/
theorem rasterize_column_empty (hh : h < d) (hw : w < d) (outer : w = 0 ∨ 2 * (d / 2) ≤ w) :
    (rasterize d)[h * d + w]? = some false := by
  rw [rasterize_cell hh hw, ← closedDisc_swap, ← rasterize_cell hw hh]
  exact rasterize_row_empty hw hh outer

end

/-- Settles O23: each symmetry of the closed form is one of the mask, and its inside cells lie in 1 .. 2 R - 1. -/
theorem maskIsSymmetric : Obligations.MaskIsSymmetric := by
  intro d r cell
  have hr : 2 * r ≤ d := Nat.mul_div_le d 2
  refine ⟨fun h w h_pos h_lt w_pos w_lt => ?_, fun i hi => ?_, fun odd i hi => ?_, fun h w hh hw inside => ?_,
    fun r_pos => ?_⟩
  · have at_cell {y x : Nat} (hy : y < d) (hx : x < d) : cell y x = some (closedDisc r (y, x)) := rasterize_cell hy hx
    rw [at_cell (y := 2 * r - h) (by omega) (by omega), at_cell (y := h) (x := w) (by omega) (by omega),
      at_cell (x := 2 * r - w) (by omega) (by omega), at_cell (y := w) (x := h) (by omega) (by omega)]
    refine ⟨congrArg some (closedDisc_mirror_row (Nat.le_of_lt h_lt)), congrArg some ?_, congrArg some closedDisc_swap⟩
    rw [← closedDisc_swap, closedDisc_mirror_row (Nat.le_of_lt w_lt), closedDisc_swap]
  · have d_pos : 0 < d := by omega
    exact ⟨rasterize_row_empty d_pos hi (.inl rfl), rasterize_column_empty hi d_pos (.inl rfl)⟩
  · have last : d - 1 < d := by omega
    have outer : 2 * (d / 2) ≤ d - 1 := by omega
    exact ⟨rasterize_row_empty last hi (.inr outer), rasterize_column_empty hi last (.inr outer)⟩
  · have disc : closedDisc r (h, w) = true := Option.some_inj.1 ((rasterize_cell hh hw).symm.trans inside)
    obtain ⟨row_pos, row_le⟩ := row_of_closedDisc disc
    obtain ⟨column_pos, column_le⟩ := row_of_closedDisc (closedDisc_swap.trans disc)
    exact ⟨row_pos, row_le, column_pos, column_le⟩
  · have first : closedDisc r (1, r) = true := closedDisc_one_radius r_pos
    have last : closedDisc r (2 * r - 1, r) = true := (closedDisc_mirror_row (by omega)).trans first
    exact ⟨(rasterize_cell (by omega) (by omega)).trans (congrArg some first),
      (rasterize_cell (by omega) (by omega)).trans (congrArg some last)⟩

/-! ### The loops -/

/-- Writes that each put the target's own element leave the target, where the start has it or some write does. -/
theorem foldl_set_getElem? {α β : Type} {cell : β → Nat} {value : β → α} {target : List α} {i : Nat} (points : List β)
    (own : ∀ p ∈ points, target[cell p]? = some (value p)) (start : List α) (length : start.length = target.length)
    (reached : start[i]? = target[i]? ∨ ∃ p ∈ points, cell p = i) :
    (points.foldl (fun l p => l.set (cell p) (value p)) start)[i]? = target[i]? := by
  induction points generalizing start with
  | nil => simpa using reached
  | cons p points ih =>
    obtain ⟨own_p, own_rest⟩ := List.forall_mem_cons.1 own
    refine ih own_rest _ (List.length_set.trans length) ?_
    by_cases hit : cell p = i
    · obtain ⟨in_target, -⟩ := List.getElem?_eq_some_iff.1 own_p
      subst hit
      exact .inl ((List.getElem?_set_self (length ▸ in_target)).trans own_p.symm)
    · rw [List.getElem?_set_ne hit]
      refine reached.imp_right ?_
      rintro ⟨q, hq, rfl⟩
      exact ⟨q, (List.mem_cons.1 hq).resolve_left fun same => hit (same ▸ rfl), rfl⟩

/-- The points of the loops are those of rows and columns below 2 R. -/
theorem mem_rasterPoints {r : Nat} {p : Int × Int} :
    p ∈ rasterPoints r ↔ ∃ h < 2 * r, ∃ w < 2 * r, (centred r w, centred r h) = p := by
  simp [rasterPoints]

/-- The point of row `h` and column `w` is written to their cell (40_disc_rasterizer.md R103). -/
theorem pointCell_centred (d h w : Nat) : pointCell d (centred (d / 2) w, centred (d / 2) h) = h * d + w := by
  simp only [pointCell, centred, Int.sub_add_cancel]
  exact Int.toNat_natCast (h * d + w)

/-- Each write of the loops puts the mask's own value. -/
theorem rasterize_pointCell {d : Nat} {p : Int × Int} (hp : p ∈ rasterPoints (d / 2)) :
    (rasterize d)[pointCell d p]? = some (insideDisc (d / 2) p.1 p.2) := by
  obtain ⟨h, hh, w, hw, rfl⟩ := mem_rasterPoints.1 hp
  rw [pointCell_centred, rasterize_cell (by omega) (by omega), ← insideDisc_eq_closedDisc]

/-- A cell the loops do not write stays clear, and it is one of the mask's empty cells. -/
theorem cleared_or_visited {d h w : Nat} (hh : h < d) (hw : w < d) :
    (rasterize d)[h * d + w]? = some false ∨ ∃ p ∈ rasterPoints (d / 2), pointCell d p = h * d + w := by
  by_cases visited : h < 2 * (d / 2) ∧ w < 2 * (d / 2)
  · obtain ⟨hh, hw⟩ := visited
    exact .inr ⟨_, mem_rasterPoints.2 ⟨h, hh, w, hw, rfl⟩, pointCell_centred d h w⟩
  · by_cases row : 2 * (d / 2) ≤ h
    · exact .inl (rasterize_row_empty hh hw (.inr row))
    · exact .inl (rasterize_column_empty hh hw (.inr (by omega)))

/-- The loops leave the mask (40_disc_rasterizer.md R103). -/
theorem rasterizeLoops_eq_rasterize (d : Nat) : rasterizeLoops d = rasterize d := by
  refine List.ext_getElem? fun i => ?_
  refine foldl_set_getElem? _ (fun p hp => rasterize_pointCell hp) _ (by simp) ?_
  by_cases hi : i < d * d
  · have d_pos : 0 < d := Nat.pos_of_mul_pos_left (Nat.zero_lt_of_lt hi)
    have cell := cleared_or_visited (Nat.div_lt_of_lt_mul hi) (Nat.mod_lt i d_pos)
    rw [Nat.div_add_mod'] at cell
    exact cell.imp_left fun clear => (List.getElem?_replicate_of_lt hi).trans clear.symm
  · exact .inl (by simp [hi])

/-- Settles O22: the installed mask is the rasterizer's, which the loops leave. -/
theorem rasterizerLoopsLeaveTheMask : Obligations.RasterizerLoopsLeaveTheMask := by
  intro s w h num den accepted legal
  obtain ⟨std, standard⟩ := State.exists_standard legal
  exact ⟨_, exec_negotiate_installed accepted standard, (rasterizeLoops_eq_rasterize _).symm⟩

end Sys2Proof.Machine
end

