-- ==== Sys2Proof/Proofs/ConverterExact.lean ====
section
/-! The integer form of the converter is its rational definition (41_rgb_to_yuv_converter.md R132, R141): each rounded
value is a quotient of integers, and no quotient leaves the range of a byte but the Full range chroma at its top. -/

namespace Sys2Proof.Machine

/-! ### Rounding and clamping -/

/-- A number that `d` makes the integer `n` has the quotient of the two as its floor. -/
theorem floor_eq_ediv {x : Rat} {n d : Int} (d_pos : 0 < d) (hx : x * d = n) : x.floor = n / d := by
  have lt_iff (z : Int) : x.floor < z ↔ n / d < z := by
    rw [Rat.floor_lt_iff, ← Rat.mul_lt_mul_right (Rat.intCast_pos.2 d_pos), hx, ← Rat.intCast_mul,
      Rat.intCast_lt_intCast, Int.ediv_lt_iff_lt_mul d_pos]
  exact Int.le_antisymm (Int.lt_add_one_iff.1 ((lt_iff _).2 (Int.lt_add_one_iff.2 (Int.le_refl _))))
    (Int.lt_add_one_iff.1 ((lt_iff _).1 (Int.lt_add_one_iff.2 (Int.le_refl _))))

/-- To round is to divide integers, once the half is brought over the denominator (R138). -/
theorem roundHalfUp_eq_ediv {x : Rat} {n d : Int} (d_pos : 0 < d) (hx : (x + 1 / 2) * d = n) :
    roundHalfUp x = n / d :=
  floor_eq_ediv d_pos hx

/-- A positive denominator is not zero as a rational. -/
theorem intCast_ne_zero {n : Int} (n_pos : 0 < n) : (n : Rat) ≠ 0 :=
  fun zero => Int.ne_of_gt n_pos (Rat.intCast_eq_zero_iff.1 zero)

theorem natCast_ne_zero {n : Nat} (n_pos : 0 < n) : (n : Rat) ≠ 0 :=
  fun zero => Nat.ne_of_gt n_pos (Rat.natCast_eq_zero_iff.1 zero)

theorem clamp8_of_nonneg {n : Int} (hn : 0 ≤ n) : clamp8 n = BitVec.ofNat 8 (min 255 n.toNat) := by
  have clamped : min n 255 = ((min 255 n.toNat : Nat) : Int) := by omega
  rw [clamp8, clamped, BitVec.ofInt_natCast]

theorem clamp8_of_mem {n : Int} (hn : 0 ≤ n) (le : n ≤ 255) : clamp8 n = BitVec.ofNat 8 n.toNat := by
  rw [clamp8_of_nonneg hn, Nat.min_eq_right (by omega)]

/-! ### Luma -/

section
variable {k : Coefficients} (hq : 0 < k.q)
include hq

/-- The sum of weighted components over the common denominator (R133). -/
theorem weighted_ratio (r g b : Nat) :
    (k.kr : Rat) / k.q * (r / 255) + k.kg / k.q * (g / 255) + k.kb / k.q * (b / 255) =
      weightedSum k r g b / (255 * k.q) := by
  have q_ne := natCast_ne_zero hq
  simp only [weightedSum, Rat.natCast_add, Rat.natCast_mul]
  grind

section
variable {sum : Nat}

theorem roundHalfUp_luma_full :
    roundHalfUp ((sum : Rat) / (255 * k.q) * 255) = lumaInt k .full sum := by
  have q_ne := natCast_ne_zero hq
  refine (roundHalfUp_eq_ediv (n := 2 * sum + k.q) (d := 2 * k.q) (by omega) ?_).trans rfl
  simp only [Rat.intCast_add, Rat.intCast_mul, Rat.intCast_natCast, Rat.intCast_ofNat]
  grind

theorem roundHalfUp_luma_studio :
    roundHalfUp ((sum : Rat) / (255 * k.q) * 219 + 16) = lumaInt k .studio sum := by
  have q_ne := natCast_ne_zero hq
  refine (roundHalfUp_eq_ediv (n := 438 * sum + 8415 * k.q) (d := 510 * k.q) (by omega) ?_).trans rfl
  simp only [Rat.intCast_add, Rat.intCast_mul, Rat.intCast_natCast, Rat.intCast_ofNat]
  grind

/-- Luma is a byte, so that its clamp does nothing. -/
theorem lumaInt_le (rng : Range) (le : sum ≤ 255 * k.q) : lumaInt k rng sum ≤ 255 := by
  cases rng with
  | full => exact Nat.lt_succ_iff.1 (Nat.div_lt_of_lt_mul (by omega))
  | studio => exact Nat.lt_succ_iff.1 (Nat.div_lt_of_lt_mul (by omega))

end

end

/-! ### Chroma -/

/-- The chroma numerator without its offset, Q * C - S (R141). -/
def chromaDiff (k : Coefficients) (c sum : Nat) : Int := (k.q * c : Int) - sum

/-- The chroma denominator without its factor, Q - kc (R141). -/
def chromaWidth (k : Coefficients) (kc : Nat) : Int := (k.q : Int) - kc

theorem chromaInt_full (k : Coefficients) (kc c sum : Nat) :
    chromaInt k .full kc c sum =
      min 255 ((chromaDiff k c sum + 257 * chromaWidth k kc) / (2 * chromaWidth k kc)).toNat := rfl

theorem chromaInt_studio (k : Coefficients) (kc c sum : Nat) :
    chromaInt k .studio kc c sum =
      ((224 * chromaDiff k c sum + 65535 * chromaWidth k kc) / (510 * chromaWidth k kc)).toNat := rfl

section
variable {k : Coefficients} {kc c sum : Nat} (width_pos : 0 < chromaWidth k kc)
include width_pos

/-- The colour difference over the common denominator (R134, R135). -/
theorem chroma_ratio : ((c : Rat) / 255 - sum / (255 * k.q)) / (1 - kc / k.q) =
    chromaDiff k c sum / (255 * chromaWidth k kc) := by
  have q_ne : (k.q : Rat) ≠ 0 := natCast_ne_zero (by rw [chromaWidth] at width_pos; omega)
  have width_ne := intCast_ne_zero width_pos
  have width : (chromaWidth k kc : Rat) = k.q - kc := Rat.intCast_sub k.q kc
  have diff : (chromaDiff k c sum : Rat) = k.q * c - sum := by
    simp only [chromaDiff, Rat.intCast_sub, Rat.intCast_mul, Rat.intCast_natCast]
  rw [width] at width_ne
  rw [width, diff]
  grind

variable (least : -255 * chromaWidth k kc ≤ chromaDiff k c sum)
include least

theorem clamp8_chroma_full :
    clamp8 (roundHalfUp ((chromaDiff k c sum : Rat) / (255 * chromaWidth k kc) * (255 / 2) + 128)) =
      BitVec.ofNat 8 (chromaInt k .full kc c sum) := by
  have width_ne := intCast_ne_zero width_pos
  rw [chromaInt_full, ← clamp8_of_nonneg (Int.ediv_nonneg (by omega) (by omega))]
  refine congrArg clamp8 (roundHalfUp_eq_ediv (by omega) ?_)
  simp only [Rat.intCast_add, Rat.intCast_mul, Rat.intCast_ofNat]
  grind

theorem clamp8_chroma_studio (largest : chromaDiff k c sum ≤ 255 * chromaWidth k kc) :
    clamp8 (roundHalfUp ((chromaDiff k c sum : Rat) / (255 * chromaWidth k kc) * 112 + 128)) =
      BitVec.ofNat 8 (chromaInt k .studio kc c sum) := by
  have width_ne := intCast_ne_zero width_pos
  rw [chromaInt_studio, ← clamp8_of_mem (Int.ediv_nonneg (by omega) (by omega))
    (Int.lt_add_one_iff.1 (Int.ediv_lt_of_lt_mul (by omega) (by omega)))]
  refine congrArg clamp8 (roundHalfUp_eq_ediv (by omega) ?_)
  simp only [Rat.intCast_add, Rat.intCast_mul, Rat.intCast_ofNat]
  grind

end

/-! ### The coefficients and the bounds they give (R131, R141) -/

theorem coefficients_q_pos (std : Standard) : 0 < (coefficients std).q := by cases std <;> decide

theorem chromaWidth_kb_pos (std : Standard) : 0 < chromaWidth (coefficients std) (coefficients std).kb := by
  cases std <;> decide

theorem chromaWidth_kr_pos (std : Standard) : 0 < chromaWidth (coefficients std) (coefficients std).kr := by
  cases std <;> decide

section
variable (std : Standard) (r g b : Byte)

/-- The weights add up to Q, so the sum is at most that of white. -/
theorem weightedSum_le :
    weightedSum (coefficients std) r.toNat g.toNat b.toNat ≤ 255 * (coefficients std).q := by
  have hr := r.isLt
  have hg := g.isLt
  have hb := b.isLt
  cases std <;> simp only [weightedSum, coefficients] <;> omega

/-- The blue difference is at most that of pure blue and at least that of pure yellow. -/
theorem chromaDiff_blue :
    -255 * chromaWidth (coefficients std) (coefficients std).kb ≤
        chromaDiff (coefficients std) b.toNat (weightedSum (coefficients std) r.toNat g.toNat b.toNat) ∧
      chromaDiff (coefficients std) b.toNat (weightedSum (coefficients std) r.toNat g.toNat b.toNat) ≤
        255 * chromaWidth (coefficients std) (coefficients std).kb := by
  have hr := r.isLt
  have hg := g.isLt
  have hb := b.isLt
  cases std <;> simp only [weightedSum, coefficients, chromaDiff, chromaWidth] <;> omega

/-- The red difference is at most that of pure red and at least that of pure cyan. -/
theorem chromaDiff_red :
    -255 * chromaWidth (coefficients std) (coefficients std).kr ≤
        chromaDiff (coefficients std) r.toNat (weightedSum (coefficients std) r.toNat g.toNat b.toNat) ∧
      chromaDiff (coefficients std) r.toNat (weightedSum (coefficients std) r.toNat g.toNat b.toNat) ≤
        255 * chromaWidth (coefficients std) (coefficients std).kr := by
  have hr := r.isLt
  have hg := g.isLt
  have hb := b.isLt
  cases std <;> simp only [weightedSum, coefficients, chromaDiff, chromaWidth] <;> omega

end

/-- The integer form is exact on every input (41_rgb_to_yuv_converter.md R132, R141). -/
theorem rgbToYuv_eq_exact (r g b : Byte) (std : Standard) (rng : Range) :
    rgbToYuv r g b std rng = rgbToYuvExact r g b std rng := by
  have q_pos := coefficients_q_pos std
  have sum_le := weightedSum_le std r g b
  obtain ⟨blue_least, blue_largest⟩ := chromaDiff_blue std r g b
  obtain ⟨red_least, red_largest⟩ := chromaDiff_red std r g b
  have luma (n : Nat) (le : n ≤ 255) : clamp8 n = BitVec.ofNat 8 n := clamp8_of_mem (by omega) (by omega)
  cases rng with
  | full =>
    simp only [rgbToYuv, rgbToYuvExact, weighted_ratio q_pos, roundHalfUp_luma_full q_pos,
      luma _ (lumaInt_le q_pos _ sum_le), chroma_ratio (chromaWidth_kb_pos std),
      chroma_ratio (chromaWidth_kr_pos std), clamp8_chroma_full (chromaWidth_kb_pos std) blue_least,
      clamp8_chroma_full (chromaWidth_kr_pos std) red_least]
  | studio =>
    simp only [rgbToYuv, rgbToYuvExact, weighted_ratio q_pos, roundHalfUp_luma_studio q_pos,
      luma _ (lumaInt_le q_pos _ sum_le), chroma_ratio (chromaWidth_kb_pos std),
      chroma_ratio (chromaWidth_kr_pos std), clamp8_chroma_studio (chromaWidth_kb_pos std) blue_least blue_largest,
      clamp8_chroma_studio (chromaWidth_kr_pos std) red_least red_largest]

/-- COLOR is the exact conversion of the overlay colour (40_disc_rasterizer.md R112). -/
theorem overlayColor_eq_exact (std : Standard) (rng : Range) :
    overlayColor std rng = (rgbToYuvExact 255 0 0 std rng).packed :=
  congrArg Yuv.packed (rgbToYuv_eq_exact 255 0 0 std rng)

end Sys2Proof.Machine
end

