-- ==== Sys2Proof/Proofs/NegotiatedRate.lean ====
section
/-! The rate and the colour that an accepted NEGOTIATE installs, with its response (40_disc_rasterizer.md R100, R101,
R112). -/

namespace Sys2Proof.Machine

/-- FPS is the truncated quotient itself: with DEN at least 1 and NUM at least DEN it is no negative number. -/
theorem frameRate_eq {num den : BitVec 32} (hden : 1 ≤ signed den) (hnum : signed den ≤ signed num) :
    (frameRate num den : Int) = signed num / signed den :=
  Int.toNat_of_nonneg (Int.ediv_nonneg (by omega) (by omega))

/-- Settles O17: the rate fits its register, and the converter is exact at the overlay colour. -/
theorem negotiateInstallsRateAndColour : Obligations.NegotiateInstallsRateAndColour := by
  intro s w h num den std accepted standard
  obtain ⟨rate_pos, rate_le⟩ := frameRate_range accepted.den_pos accepted.rate_ok
  have rate := frameRate_eq accepted.den_pos accepted.rate_ok
  have fps : (BitVec.ofNat 32 (frameRate num den)).toNat = frameRate num den :=
    BitVec.toNat_ofNat .. |>.trans (Nat.mod_eq_of_lt (by omega))
  refine ⟨_, exec_negotiate_installed accepted standard, rfl, ?_⟩
  simp only [State.respond_fps, State.install_fps, fps]
  exact ⟨rate, rate_pos, rate_le, overlayColor_eq_exact std s.range, rfl⟩

end Sys2Proof.Machine
end

