-- ==== Sys2Proof/Proofs/ConverterBounds.lean ====
section
/-! The numerators of the integer form are small non-negative integers, and CONVERT answers the exact colour
(41_rgb_to_yuv_converter.md R132, R140, R141). -/

namespace Sys2Proof.Machine

/-- Settles O27: the response carries the integer form, which is exact. -/
theorem convertAnswersTheExactColour : Obligations.ConvertAnswersTheExactColour := by
  intro s r g b std rng
  rw [exec_convert, execConvert_eq, rgbToYuv_eq_exact]
  rfl

theorem coefficients_q_le (std : Standard) : (coefficients std).q ≤ 10000 := by cases std <;> decide

/-- The widest chroma denominator is that of blue under BT709 (R131). -/
theorem chromaWidth_kb_le (std : Standard) : chromaWidth (coefficients std) (coefficients std).kb ≤ 9278 := by
  cases std <;> decide

theorem chromaWidth_kr_le (std : Standard) : chromaWidth (coefficients std) (coefficients std).kr ≤ 9278 := by
  cases std <;> decide

/-- A colour without blue and with all of red and green takes the least blue difference. -/
theorem chromaDiff_yellow (std : Standard) :
    chromaDiff (coefficients std) 0 (weightedSum (coefficients std) 255 255 0) =
      -255 * chromaWidth (coefficients std) (coefficients std).kb := by
  cases std <;> decide

/-- A colour without red and with all of green and blue takes the least red difference. -/
theorem chromaDiff_cyan (std : Standard) :
    chromaDiff (coefficients std) 0 (weightedSum (coefficients std) 0 255 255) =
      -255 * chromaWidth (coefficients std) (coefficients std).kr := by
  cases std <;> decide

/-- A numerator is non-negative, at most that of blue under BT709 Studio, and below 2^31 (R141). -/
def SmallNumerator (n : Int) : Prop := 0 ≤ n ∧ n ≤ 65535 * 9278 + 224 * 255 * 9278 ∧ n < 2 ^ 31

section
variable {diff width : Int} (width_le : width ≤ 9278) (least : -255 * width ≤ diff) (largest : diff ≤ 255 * width)
include width_le least largest

theorem smallNumerator_full : SmallNumerator (diff + 257 * width) := by
  refine ⟨?_, ?_, ?_⟩ <;> omega

theorem smallNumerator_studio : SmallNumerator (224 * diff + 65535 * width) := by
  refine ⟨?_, ?_, ?_⟩ <;> omega

end

/-- Settles O28: exactness, and the bounds of the weighted sum and of the two colour differences. -/
theorem converterIntegerFormIsExact : Obligations.ConverterIntegerFormIsExact := by
  intro r g b std rng
  have q_le := coefficients_q_le std
  have sum_le := weightedSum_le std r g b
  obtain ⟨blue_least, blue_largest⟩ := chromaDiff_blue std r g b
  obtain ⟨red_least, red_largest⟩ := chromaDiff_red std r g b
  have blue_width := chromaWidth_kb_le std
  have red_width := chromaWidth_kr_le std
  refine ⟨rgbToYuv_eq_exact r g b std rng, sum_le, by omega, by omega, blue_least, red_least,
    chromaDiff_yellow std, chromaDiff_cyan std, smallNumerator_full blue_width blue_least blue_largest,
    smallNumerator_full red_width red_least red_largest, smallNumerator_studio blue_width blue_least blue_largest,
    smallNumerator_studio red_width red_least red_largest, ?_⟩
  rintro rfl
  decide

/-- Settles O30, by evaluating the integer form at the overlay colour. -/
theorem overlayColourTable : Obligations.OverlayColourTable := by
  unfold Obligations.OverlayColourTable
  decide

end Sys2Proof.Machine
end

