-- ==== Sys2Proof/Proofs/ConverterRanges.lean ====
section
/-! The grey axis of the converter and the ranges of its outputs (41_rgb_to_yuv_converter.md R142). -/

namespace Sys2Proof.Machine

/-! ### The ranges of the integer form -/

section
variable {k : Coefficients} {sum : Nat} (hq : 0 < k.q)
include hq

theorem lumaInt_studio_range (le : sum ≤ 255 * k.q) :
    16 ≤ lumaInt k .studio sum ∧ lumaInt k .studio sum ≤ 235 :=
  ⟨(Nat.le_div_iff_mul_le (by omega)).2 (by omega), Nat.lt_succ_iff.1 (Nat.div_lt_of_lt_mul (by omega))⟩

end

section
variable {k : Coefficients} {kc c sum : Nat} (width_pos : 0 < chromaWidth k kc)
  (least : -255 * chromaWidth k kc ≤ chromaDiff k c sum)
include width_pos least

theorem chromaInt_full_range : 1 ≤ chromaInt k .full kc c sum ∧ chromaInt k .full kc c sum ≤ 255 := by
  have one_le := (Int.le_ediv_iff_mul_le (c := 2 * chromaWidth k kc) (by omega)).2
    (show 1 * (2 * chromaWidth k kc) ≤ chromaDiff k c sum + 257 * chromaWidth k kc by omega)
  rw [chromaInt_full]
  omega

theorem chromaInt_studio_range (largest : chromaDiff k c sum ≤ 255 * chromaWidth k kc) :
    16 ≤ chromaInt k .studio kc c sum ∧ chromaInt k .studio kc c sum ≤ 240 := by
  have least_quotient := (Int.le_ediv_iff_mul_le (c := 510 * chromaWidth k kc) (by omega)).2
    (show 16 * (510 * chromaWidth k kc) ≤ 224 * chromaDiff k c sum + 65535 * chromaWidth k kc by omega)
  have largest_quotient := Int.ediv_lt_of_lt_mul (c := 510 * chromaWidth k kc) (by omega)
    (show 224 * chromaDiff k c sum + 65535 * chromaWidth k kc < 241 * (510 * chromaWidth k kc) by omega)
  rw [chromaInt_studio]
  omega

/-- Chroma is a byte, by its clamp in Full range and by itself in Studio range. -/
theorem chromaInt_le (rng : Range) (largest : chromaDiff k c sum ≤ 255 * chromaWidth k kc) :
    chromaInt k rng kc c sum ≤ 255 := by
  cases rng with
  | full => exact (chromaInt_full_range width_pos least).2
  | studio => exact Nat.le_trans (chromaInt_studio_range width_pos least largest).2 (by decide)

end

/-! ### No output is truncated to its byte -/

section
variable (r g b : Byte) (std : Standard) (rng : Range)

theorem rgbToYuv_y_toNat : (rgbToYuv r g b std rng).y.toNat =
    lumaInt (coefficients std) rng (weightedSum (coefficients std) r.toNat g.toNat b.toNat) :=
  BitVec.toNat_ofNat .. |>.trans (Nat.mod_eq_of_lt (Nat.lt_succ_iff.2
    (lumaInt_le (coefficients_q_pos std) rng (weightedSum_le std r g b))))

theorem rgbToYuv_u_toNat : (rgbToYuv r g b std rng).u.toNat =
    chromaInt (coefficients std) rng (coefficients std).kb b.toNat
      (weightedSum (coefficients std) r.toNat g.toNat b.toNat) := by
  obtain ⟨least, largest⟩ := chromaDiff_blue std r g b
  exact BitVec.toNat_ofNat .. |>.trans (Nat.mod_eq_of_lt (Nat.lt_succ_iff.2
    (chromaInt_le (chromaWidth_kb_pos std) least rng largest)))

theorem rgbToYuv_v_toNat : (rgbToYuv r g b std rng).v.toNat =
    chromaInt (coefficients std) rng (coefficients std).kr r.toNat
      (weightedSum (coefficients std) r.toNat g.toNat b.toNat) := by
  obtain ⟨least, largest⟩ := chromaDiff_red std r g b
  exact BitVec.toNat_ofNat .. |>.trans (Nat.mod_eq_of_lt (Nat.lt_succ_iff.2
    (chromaInt_le (chromaWidth_kr_pos std) least rng largest)))

end

/-! ### The grey axis -/

/-- The weights add up to Q, so grey weighs Q * n (R131). -/
theorem weightedSum_grey (std : Standard) (n : Nat) :
    weightedSum (coefficients std) n n n = (coefficients std).q * n := by
  cases std <;> simp only [weightedSum, coefficients] <;> omega

section
variable {k : Coefficients} (n : Nat)

/-- Grey has no colour difference, and 128.5 rounds down in the quotient. -/
theorem chromaInt_grey {kc : Nat} (width_pos : 0 < chromaWidth k kc) (rng : Range) :
    chromaInt k rng kc n (k.q * n) = 128 := by
  have diff : chromaDiff k n (k.q * n) = 0 := by simp only [chromaDiff, Int.natCast_mul, Int.sub_self]
  cases rng with
  | full =>
    rw [chromaInt_full, diff, Int.zero_add, Int.mul_ediv_mul_of_pos_left _ _ width_pos]
    rfl
  | studio =>
    rw [chromaInt_studio, diff, Int.mul_zero, Int.zero_add, Int.mul_ediv_mul_of_pos_left _ _ width_pos]
    rfl

theorem lumaInt_full_grey (hq : 0 < k.q) : lumaInt k .full (k.q * n) = n := by
  change (2 * (k.q * n) + k.q) / (2 * k.q) = n
  rw [← Nat.mul_assoc, Nat.mul_add_div (by omega), Nat.div_eq_of_lt (by omega), Nat.add_zero]

theorem lumaInt_studio_grey (hq : 0 < k.q) :
    (lumaInt k .studio (k.q * n) : Int) = roundHalfUp ((n : Rat) * 219 / 255 + 16) := by
  have q_ne := natCast_ne_zero hq
  have ratio : ((k.q * n : Nat) : Rat) / (255 * k.q) * 219 = n * 219 / 255 := by
    rw [Rat.natCast_mul]
    grind
  rw [← roundHalfUp_luma_studio hq, ratio]

end

section
variable (n : Byte) (std : Standard)

theorem rgbToYuv_grey_u (rng : Range) : (rgbToYuv n n n std rng).u = 128 :=
  BitVec.eq_of_toNat_eq (by
    rw [rgbToYuv_u_toNat, weightedSum_grey, chromaInt_grey _ (chromaWidth_kb_pos std)]
    rfl)

theorem rgbToYuv_grey_v (rng : Range) : (rgbToYuv n n n std rng).v = 128 :=
  BitVec.eq_of_toNat_eq (by
    rw [rgbToYuv_v_toNat, weightedSum_grey, chromaInt_grey _ (chromaWidth_kr_pos std)]
    rfl)

theorem rgbToYuv_grey_y_full : (rgbToYuv n n n std .full).y = n :=
  BitVec.eq_of_toNat_eq (by
    rw [rgbToYuv_y_toNat, weightedSum_grey, lumaInt_full_grey _ (coefficients_q_pos std)])

theorem rgbToYuv_grey_y_studio : ((rgbToYuv n n n std .studio).y.toNat : Int) =
    roundHalfUp ((n.toNat : Rat) * 219 / 255 + 16) := by
  rw [rgbToYuv_y_toNat, weightedSum_grey, lumaInt_studio_grey _ (coefficients_q_pos std)]

end

/-- Settles O29: the grey axis, its three sample points, and the ranges from the extremes of the differences. -/
theorem greyAxisAndOutputRanges : Obligations.GreyAxisAndOutputRanges := by
  refine ⟨fun n std rng => ⟨rgbToYuv_grey_u n std rng, rgbToYuv_grey_v n std rng⟩,
    fun n std => ⟨rgbToYuv_grey_y_full n std, rgbToYuv_grey_y_studio n std⟩,
    fun std => by cases std <;> decide, fun r g b std => ?_⟩
  obtain ⟨blue_least, blue_largest⟩ := chromaDiff_blue std r g b
  obtain ⟨red_least, red_largest⟩ := chromaDiff_red std r g b
  obtain ⟨y_least, y_largest⟩ := lumaInt_studio_range (coefficients_q_pos std) (weightedSum_le std r g b)
  obtain ⟨u_least, u_largest⟩ := chromaInt_studio_range (chromaWidth_kb_pos std) blue_least blue_largest
  obtain ⟨v_least, v_largest⟩ := chromaInt_studio_range (chromaWidth_kr_pos std) red_least red_largest
  simp only [rgbToYuv_y_toNat, rgbToYuv_u_toNat, rgbToYuv_v_toNat]
  exact ⟨(chromaInt_full_range (chromaWidth_kb_pos std) blue_least).1,
    (chromaInt_full_range (chromaWidth_kr_pos std) red_least).1,
    y_least, y_largest, u_least, u_largest, v_least, v_largest⟩

end Sys2Proof.Machine
end

