-- ==== Sys2Proof/Proofs/ObservationCommands.lean ====
section
/-! The commands that only observe: CONVERT, RDREG and RDMASK (70_reset_and_hazards.md R223). -/

namespace Sys2Proof.Machine

/-- A command whose only effect is to keep the state leaves all but the response port. -/
theorem sameButResponse_of_effect {i : Instr} {s t : State} (kept : ∀ u, Effect s i u → u = s)
    (h : exec i s = .next t) : s.SameButResponse t := by
  obtain ⟨u, r, effect, rfl⟩ := exec_effect h
  rw [kept u effect]
  rfl

/-- Settles O31: the three commands have no effect but to keep the state. -/
theorem observationCommandsChangeNothing : Obligations.ObservationCommandsChangeNothing := by
  intro s t
  exact ⟨fun _ _ _ _ _ => sameButResponse_of_effect fun | _, .kept .. => rfl,
    fun _ => sameButResponse_of_effect fun | _, .kept .. => rfl,
    fun _ => sameButResponse_of_effect fun | _, .kept .. => rfl⟩

end Sys2Proof.Machine
end

