-- ==== Sys2Proof/Proofs/FrameOutcome.lean ====
section
/-! The answer of FRAME in full (42_yuv_plane_compositor.md R150 to R161): what every answer carries, which reason a frame
that passes through names, what a drawn frame becomes, and what FRAME neither changes nor looks at. -/

namespace Sys2Proof.Machine

/-! ### Which reason is named -/

/-- A chain of tests never answers `b` when its first test answers another value and the rest never answers `b`. -/
theorem ite_some_ne_some {α : Type} {c : Prop} [Decidable c] {a b : α} {o : Option α} (first : a ≠ b)
    (rest : o ≠ some b) : (if c then some a else o) ≠ some b := by
  by_cases hc : c
  · rw [if_pos hc]
    exact fun h => first (Option.some.inj h)
  · rw [if_neg hc]
    exact rest

section
variable {s : State} {len : BitVec 64} {wr : Bool}

/-- Every condition for not drawing has a reason of its own; REASON 0 is none of them. -/
theorem State.notDrawn_ne_noReason : s.notDrawn len wr ≠ some .noReason :=
  ite_some_ne_some nofun <| ite_some_ne_some nofun <| ite_some_ne_some nofun <|
    ite_some_ne_some nofun <| ite_some_ne_some nofun nofun

/-! The five conditions in the order of 42_yuv_plane_compositor.md R155, each after those before it have failed. -/

theorem State.notDrawn_unconfigured (valid : s.valid = false) : s.notDrawn len wr = some .unconfigured :=
  if_pos valid

section
variable (valid : s.valid = true)
include valid

theorem State.notDrawn_of_valid : s.notDrawn len wr =
    if wr = false then some .notWritable
    else if len.toNat < s.minlen.toNat then some .short
    else if s.showOverlay = false then some .showOff
    else if visible s.counter.toNat s.fps.toNat = false then some .hidden
    else none :=
  if_neg (by simp [valid])

theorem State.notDrawn_notWritable : s.notDrawn len false = some .notWritable :=
  (State.notDrawn_of_valid valid).trans (if_pos rfl)

theorem State.notDrawn_short (short : len.toNat < s.minlen.toNat) : s.notDrawn len true = some .short := by
  rw [State.notDrawn_of_valid valid, if_neg nofun, if_pos short]

section
variable (long : s.minlen.toNat ≤ len.toNat)
include long

theorem State.notDrawn_showOff (off : s.showOverlay = false) : s.notDrawn len true = some .showOff := by
  rw [State.notDrawn_of_valid valid, if_neg nofun, if_neg (Nat.not_lt.2 long), if_pos off]

theorem State.notDrawn_hidden (showing : s.showOverlay = true)
    (hidden : visible s.counter.toNat s.fps.toNat = false) : s.notDrawn len true = some .hidden := by
  rw [State.notDrawn_of_valid valid, if_neg nofun, if_neg (Nat.not_lt.2 long), if_neg (by simp [showing]),
    if_pos hidden]

end

end

/-! ### What every answer of FRAME carries -/

variable {t : State}

/-- COUNTER is incremented before anything else is decided (42_yuv_plane_compositor.md R151). -/
theorem FrameAnswer.counter_eq (answer : FrameAnswer s len wr t) : t.counter = s.counter + 1 := by
  cases answer with
  | passed => rfl
  | drawn => rfl

/-- OK with FWD and the new COUNTER, and a reason exactly when the frame was not drawn
(42_yuv_plane_compositor.md R155, R161). -/
theorem FrameAnswer.rsp_eq (answer : FrameAnswer s len wr t) : ∃ drawn reason,
    t.rsp = some ⟨.ok, true, drawn, reason, opFrame, (s.counter + 1).setWidth 64⟩ ∧
      (drawn = true ↔ reason = .noReason) := by
  cases answer with
  | passed reason notDrawn =>
    exact ⟨false, reason, rfl, nofun, fun none => absurd (none ▸ notDrawn) State.notDrawn_ne_noReason⟩
  | drawn => exact ⟨true, .noReason, rfl, fun _ => rfl, fun _ => rfl⟩

/-- FRAME writes COUNTER, frame space and the response port, and no other field of the state. -/
theorem FrameAnswer.state_eq (answer : FrameAnswer s len wr t) :
    { t with counter := s.counter, frame := s.frame, rsp := s.rsp } = s := by
  cases answer with
  | passed => rfl
  | drawn => rfl

/-- An address that no write of the overlay names reads as before. -/
theorem FrameAnswer.read_unnamed (answer : FrameAnswer s len wr t) {a : Nat}
    (unnamed : ∀ writes, s.overlayWrites = .ok writes → ∀ c ∈ writes, c.1 ≠ a) :
    t.frame.read a = s.frame.read a := by
  cases answer with
  | passed => rfl
  | drawn writes _ overlay => exact Memory.read_writeAll_other (unnamed writes overlay) s.frame

/-- A frame that its response says was not drawn is untouched. -/
theorem FrameAnswer.frame_eq_of_not_drawn (answer : FrameAnswer s len wr t) {r : Response} (hr : t.rsp = some r)
    (not_drawn : r.drawn = false) : t.frame = s.frame := by
  cases answer with
  | passed => rfl
  | drawn =>
    cases hr
    cases not_drawn

end

/-! ### CTRL.SILENT -/

section
variable {s : State} {value : BitVec 5}

/-- CTRL enters the decision to draw through SHOW alone. -/
theorem State.writeCtrl_countFrame_notDrawn (same : (s.writeCtrl value).showOverlay = s.showOverlay)
    (len : BitVec 64) (wr : Bool) : (s.writeCtrl value).countFrame.notDrawn len wr = s.countFrame.notDrawn len wr := by
  change (s.writeCtrl value).countFrame.showOverlay = s.countFrame.showOverlay at same
  simp only [State.notDrawn, same]
  rfl

theorem State.writeCtrl_overlayWrites : (s.writeCtrl value).overlayWrites = s.overlayWrites :=
  State.overlayWrites_congr rfl rfl rfl

/-- With another CTRL of the same SHOW, FRAME does the same and leaves that CTRL. -/
theorem FrameAnswer.writeCtrl {t : State} {len : BitVec 64} {wr : Bool} (answer : FrameAnswer s len wr t)
    (same : (s.writeCtrl value).showOverlay = s.showOverlay) :
    FrameAnswer (s.writeCtrl value) len wr (t.writeCtrl value) := by
  have decision := State.writeCtrl_countFrame_notDrawn same len wr
  cases answer with
  | passed reason notDrawn => exact .passed reason (decision.trans notDrawn)
  | drawn writes draws overlay inside =>
    exact .drawn writes (decision.trans draws) (State.writeCtrl_overlayWrites.trans overlay) inside

end

/-- SILENT is bit 0 of CTRL and SHOW is bit 1 (10_state.md R24). -/
theorem State.showOverlay_flip_silent (s : State) :
    (s.writeCtrl (s.ctrl ^^^ 1)).showOverlay = s.showOverlay := by
  simp [State.showOverlay]

/-! ### The statements -/

/-- Settles O32: under the invariant FRAME answers, and what every answer carries is said above. -/
theorem frameAlwaysCountsAndForwards : Obligations.FrameAlwaysCountsAndForwards := by
  intro s len wr inv
  obtain ⟨t, e⟩ := inv.execFrame_answers len wr
  have answer := execFrame_eq_next_iff.1 e
  obtain ⟨drawn, reason, rsp_eq, drawn_iff⟩ := answer.rsp_eq
  refine ⟨t, drawn, reason, e, ?_, ?_, drawn_iff⟩
  · rw [answer.counter_eq]
    exact BitVec.toNat_add s.counter 1
  · rw [rsp_eq, answer.counter_eq]
    rfl

/-- Settles O33: the state FRAME decides in names the reason of the first condition that holds. -/
theorem framePassesThroughForTheFirstReason : Obligations.FramePassesThroughForTheFirstReason := by
  intro s len wr c passed
  have passes : ∀ {reason}, s.countFrame.notDrawn len wr = some reason →
      exec (.frame len wr) s = passed reason :=
    fun {reason} notDrawn => execFrame_eq_next_iff.2 (.passed reason notDrawn)
  refine ⟨fun valid => passes (State.notDrawn_unconfigured valid), ?_, ?_, ?_, ?_⟩
  · rintro valid rfl
    exact passes (State.notDrawn_notWritable (s := s.countFrame) valid)
  · rintro valid rfl short
    exact passes (State.notDrawn_short (s := s.countFrame) valid short)
  · rintro valid rfl long off
    exact passes (State.notDrawn_showOff (s := s.countFrame) valid long off)
  · rintro valid rfl long showing - outside
    exact passes (State.notDrawn_hidden (s := s.countFrame) valid long showing (decide_eq_false outside))

/-- Settles O34: the writes of the overlay are those of the inside cells, with R157's addresses written out. -/
theorem frameDrawsTheDiscInRasterOrder : Obligations.FrameDrawsTheDiscInRasterOrder := by
  intro s len inv valid long showing phase_visible
  exact inv.execFrame_draws valid long showing phase_visible

/-- Settles O35: both answers of FRAME keep the other registers and the bytes no write names. -/
theorem frameKeepsEverythingElse : Obligations.FrameKeepsEverythingElse := by
  intro s t len wr h
  have answer := execFrame_eq_next_iff.1 h
  exact ⟨answer.state_eq, fun a unnamed => answer.read_unnamed unnamed,
    fun r hr not_drawn a => by rw [answer.frame_eq_of_not_drawn hr not_drawn]⟩

/-- Settles O41: flipping SILENT keeps SHOW, and of CTRL only SHOW matters to FRAME. -/
theorem silentHasNoEffectOnFrame : Obligations.SilentHasNoEffectOnFrame := by
  intro s t len wr h
  have answer := execFrame_eq_next_iff.1 h
  exact execFrame_eq_next_iff.2 (answer.writeCtrl s.showOverlay_flip_silent)

end Sys2Proof.Machine
end

