-- ==== Sys2Proof/Proofs/BlinkSchedule.lean ====
section
/-! The blink schedule (42_yuv_plane_compositor.md R158, R159): each window of FPS counter values is visible for its
first FPS / 2. -/

namespace Sys2Proof.Machine

/-- Value `j` of a window has phase `j`. -/
theorem visible_window {fps j : Nat} (hj : j < fps) (a : Nat) : visible (a * fps + j) fps = decide (j < fps / 2) := by
  rw [visible, phase, Nat.mul_add_mod_of_lt hj]

/-- Of the numbers below `k + rest` exactly the first `k` are below `k`. -/
theorem filter_lt_range_add (k rest : Nat) :
    (List.range (k + rest)).filter (fun j => decide (j < k)) = List.range k := by
  have below : (List.range k).filter (fun j => decide (j < k)) = List.range k :=
    List.filter_eq_self.2 fun _ hj => decide_eq_true (List.mem_range.1 hj)
  have above : ((List.range rest).map (k + ·)).filter (fun j => decide (j < k)) = [] := by
    refine List.filter_eq_nil_iff.2 fun j hj hlt => ?_
    obtain ⟨i, -, rfl⟩ := List.mem_map.1 hj
    exact Nat.not_lt.2 (Nat.le_add_right k i) (of_decide_eq_true hlt)
  rw [List.range_add, List.filter_append, below, above, List.append_nil]

/-- The visible values of a window are its first FPS / 2. -/
theorem filter_visible_window (fps a : Nat) :
    (List.range fps).filter (fun j => visible (a * fps + j) fps) = List.range (fps / 2) := by
  calc (List.range fps).filter (fun j => visible (a * fps + j) fps)
    _ = (List.range fps).filter (fun j => decide (j < fps / 2)) :=
      List.filter_congr fun _ hj => visible_window (List.mem_range.1 hj) a
    _ = List.range (fps / 2) := by
      obtain ⟨rest, split⟩ := Nat.exists_eq_add_of_le (Nat.div_le_self fps 2)
      generalize fps / 2 = k at split ⊢
      rw [split, filter_lt_range_add]

/-- With FPS = 2 or 3 the visible half of a window is its first value. -/
theorem visible_iff_mod_eq_zero {fps : Nat} (half : fps / 2 = 1) (c : Nat) : visible c fps = true ↔ c % fps = 0 := by
  rw [visible, phase, half, decide_eq_true_iff, Nat.lt_one_iff]

/-- Settles O40: the windows, the count of their visible values, and the three least rates. -/
theorem blinkScheduleShape : Obligations.BlinkScheduleShape := by
  refine ⟨fun fps a j hj => ?_, fun fps a _ => ?_, fun c => ⟨?_, ?_, ?_⟩⟩
  · rw [visible_window hj, decide_eq_true_iff]
  · rw [filter_visible_window, List.length_range]
  · exact decide_eq_false (Nat.not_lt_zero _)
  · exact visible_iff_mod_eq_zero rfl c
  · exact visible_iff_mod_eq_zero rfl c

end Sys2Proof.Machine
end

