-- ==== Sys2Proof/Proofs/ControlReadback.lean ====
section
/-! What EOS, RDREG and RDMASK answer, as whole next states (43_control_readback.md R182, R186, R188). -/

namespace Sys2Proof.Machine

/-- Settles O43: EOS is the release with the response OK and FWD, whatever VALID is. -/
theorem eosReleasesTheConfiguration : Obligations.EosReleasesTheConfiguration := by
  intro s
  rw [exec_eos, execEos_eq]
  rfl

/-! ### RDREG -/

section
variable {s : State} {idx : Byte}

theorem exec_rdreg_of_register {value : BitVec 64} (register : s.register idx = some value) :
    exec (.rdreg idx) s = .next (s.respond opRdreg .ok false false .noReason value) := by
  rw [exec_rdreg, execRdreg, register]

theorem exec_rdreg_of_no_register (register : s.register idx = none) :
    exec (.rdreg idx) s = .next (s.reject opRdreg .errRange) := by
  rw [exec_rdreg, execRdreg, register]

/-- The register map of 10_state.md R23 ends at index 12. -/
theorem State.register_eq_none (above : 12 < idx.toNat) : s.register idx = none := by
  obtain ⟨n, idx_eq⟩ := Nat.exists_eq_add_of_le' (Nat.succ_le_of_lt above)
  rw [State.register, idx_eq]
  rfl

end

/-- Settles O46: each entry of the map is what `State.register` holds at its index, and above 12 it holds nothing. -/
theorem rdregReadsTheRegisterMap : Obligations.RdregReadsTheRegisterMap := by
  intro s
  refine ⟨fun entry mem => exec_rdreg_of_register ?_,
    fun idx above => exec_rdreg_of_no_register (State.register_eq_none above)⟩
  revert entry
  simp only [List.forall_mem_cons]
  exact ⟨rfl, rfl, rfl, rfl, rfl, rfl, rfl, rfl, rfl, rfl, rfl, rfl, rfl, nofun⟩

/-! ### RDMASK -/

/-- Cell `cell` of a mask that holds the disc is in row `cell / d` and column `cell % d`. -/
theorem HoldsDisc.getElem? {mask : List Bool} {d r cell : Nat} (disc : HoldsDisc mask d r) (inside : cell < d * d) :
    mask[cell]? = some (closedDisc r (cell / d, cell % d)) := by
  obtain ⟨-, cells⟩ := disc
  have d_pos : 0 < d := Nat.pos_of_mul_pos_left (Nat.zero_lt_of_lt inside)
  have row_lt : cell / d < d := Nat.div_lt_of_lt_mul inside
  have col_lt : cell % d < d := Nat.mod_lt cell d_pos
  have at_cell := cells _ row_lt _ col_lt
  rw [Nat.div_add_mod'] at at_cell
  exact at_cell

theorem cellData_decide (p : Prop) [Decidable p] : cellData (decide p) = if p then 1 else 0 := by
  by_cases hp : p
  · rw [decide_eq_true hp, if_pos hp]
    rfl
  · rw [decide_eq_false hp, if_neg hp]
    rfl

section
variable {s : State} {cell : BitVec 32}

theorem State.Configured.holdsDisc (configured : s.Configured) : HoldsDisc s.mask s.diam.toNat s.radius.toNat := by
  obtain ⟨-, -, -, -, -, -, -, -, -, -, -, -, disc, -⟩ := configured
  exact disc

theorem exec_rdmask_outside (outside : s.valid = false ∨ s.diam.toNat * s.diam.toNat ≤ cell.toNat) :
    exec (.rdmask cell) s = .next (s.reject opRdmask .errRange) := by
  rw [exec_rdmask, execRdmask, if_pos outside]

theorem exec_rdmask_of_maskCell {value : Bool} (valid : s.valid = true)
    (inside : cell.toNat < s.diam.toNat * s.diam.toNat) (holds : s.maskCell cell.toNat = some value) :
    exec (.rdmask cell) s = .next (s.respond opRdmask .ok false false .noReason (cellData value)) := by
  have not_outside : ¬ (s.valid = false ∨ s.diam.toNat * s.diam.toNat ≤ cell.toNat) :=
    not_or.2 ⟨by simp [valid], Nat.not_le.2 inside⟩
  rw [exec_rdmask, execRdmask, if_neg not_outside, holds]

end

/-- Settles O47: under the invariant a configured block holds the disc, and so RDMASK answers its closed form. -/
theorem rdmaskReadsTheDisc : Obligations.RdmaskReadsTheDisc := by
  intro s cell d r x y
  refine ⟨exec_rdmask_outside, fun inv valid inside => ?_⟩
  have disc := (inv.configured valid).holdsDisc
  rw [exec_rdmask_of_maskCell valid inside (disc.getElem? inside), closedDisc, cellData_decide]
  rfl

end Sys2Proof.Machine
end

