-- ==== Sys2Proof/Proofs/ErrorsAndTermination.lean ====
section
/-! Errors and termination (60_exceptions.md): every command answers, and so does every step in which the host does not
overrun (R206); the idle block (R212); the answer to an illegal descriptor (R201); the bound on the writes of a FRAME
(R206). -/

namespace Sys2Proof.Machine

/-! ### Commands and steps answer -/

/-- Settles O5: command by command, the invariant leaves nothing to stop on. -/
theorem commandsAnswerUnderInv : Obligations.CommandsAnswerUnderInv :=
  fun i _ inv => inv.exec_answers i

/-- The invariant speaks of the buffers still in the script too, so the state a command runs in meets it. -/
theorem State.Inv.lend_move {s : State} (inv : s.Inv) {bytes : List Byte} {buffer : Memory} {rest : List HostMove}
    (hhost : s.host = .send bytes buffer :: rest) : (s.lend buffer rest).Inv := by
  have moves := inv.host_wf
  rw [hhost, List.forall_mem_cons] at moves
  obtain ⟨buffer_wf, rest_wf⟩ := moves
  exact inv.lend buffer_wf rest_wf

/-- Settles O6: of all that a step can do, it is refused only where the host overruns; a command it runs answers. -/
theorem stepAnswersUnlessTheHostOverruns : Obligations.StepAnswersUnlessTheHostOverruns := by
  intro s inv
  rcases step_cases s with ⟨-, e⟩ | ⟨rest, -, e⟩ | ⟨bytes, buffer, rest, hhost, hsend⟩
  · exact .inl ⟨_, e⟩
  · exact .inl ⟨_, e⟩
  · rcases hsend with ⟨-, e⟩ | ⟨long, e⟩ | ⟨d, -, -, ⟨_, -, e⟩ | ⟨i, -, e⟩⟩
    · exact .inl ⟨_, e⟩
    · exact .inr ⟨bytes, buffer, rest, hhost, long, e⟩
    · exact .inl ⟨_, e⟩
    · rw [e]
      exact .inl ((inv.lend_move hhost).exec_answers i)

/-- Settles O10: an empty script gives the step no move to take. -/
theorem idleBlockHoldsItsState : Obligations.IdleBlockHoldsItsState := by
  intro s idle
  simp only [step, State.takeMove, idle]

/-! ### Illegal descriptors -/

/-- The decoder refuses what the opcode table and the reserved STD make illegal (30_encoding.md R73, R86). -/
theorem decode_eq_error_of_not_legal {d : Descriptor} (illegal : d.legal = false) : ∃ e, decode d = .error e := by
  cases hdecode : decode d with
  | error e => exact ⟨e, rfl⟩
  | ok i =>
    have legal : d.legal = true := (decoderAcceptsExactlyTheLegalDescriptors d).1 ⟨i, hdecode⟩
    cases illegal.symm.trans legal

/-- Settles O8: the decoder refuses the descriptor, and the step answers that in the lent state. -/
theorem illegalDescriptorChangesNothing : Obligations.IllegalDescriptorChangesNothing := by
  intro s bytes buffer rest d hhost hbytes illegal
  obtain ⟨e, hdecode⟩ := decode_eq_error_of_not_legal illegal
  simp only [step, State.takeMove_command hhost hbytes, hdecode]
  rfl

/-! ### The number of writes -/

@[simp] theorem State.cellWrites_length (s : State) (cell : Nat × Nat) : (s.cellWrites cell).length = 3 := rfl

/-- An overlay that can be read is the first cell's three writes or none, and the overlay of the cells after it
(42_yuv_plane_compositor.md R156). -/
theorem overlayFrom_cons_eq_ok {s : State} {cell : Nat × Nat} {rest : List (Nat × Nat)} {writes : List Host.Cell}
    (h : overlayFrom s (cell :: rest) = .ok writes) :
    ∃ later, overlayFrom s rest = .ok later ∧ (writes = s.cellWrites cell ++ later ∨ writes = later) := by
  unfold overlayFrom at h
  split at h
  case h_1 => cases h
  case h_2 inside _ =>
    split at h
    case h_1 => cases h
    case h_2 later hlater =>
      cases h
      refine ⟨later, hlater, ?_⟩
      cases inside with
      | true => exact .inl rfl
      | false => exact .inr rfl

theorem overlayFrom_length_le {s : State} {cells : List (Nat × Nat)} {writes : List Host.Cell}
    (h : overlayFrom s cells = .ok writes) : writes.length ≤ 3 * cells.length := by
  induction cells generalizing writes with
  | nil =>
    cases h
    exact Nat.zero_le _
  | cons cell rest ih =>
    obtain ⟨later, hlater, rfl | rfl⟩ := overlayFrom_cons_eq_ok h
    · have := ih hlater
      simp only [List.length_append, State.cellWrites_length, List.length_cons]
      omega
    · exact Nat.le_trans (ih hlater) (Nat.mul_le_mul_left 3 (Nat.le_succ _))

/-- Settles O39: the grid has D * D cells, and each adds at most three writes. -/
theorem overlayWritesAreBounded : Obligations.OverlayWritesAreBounded := by
  intro s writes overlay
  have bound := overlayFrom_length_le overlay
  rwa [rasterCells_length] at bound

end Sys2Proof.Machine
end

