-- ==== Sys2Proof/Proofs/ValidAndControl.lean ====
section
/-! Where the commands move VALID (70_reset_and_hazards.md R223), and when a value written by WRCTRL takes effect: STD
and RNG at the next accepted NEGOTIATE, SHOW at the next FRAME (R226). -/

namespace Sys2Proof.Machine

/-! ### The state diagram -/

section
variable {s t : State}

/-- NEGOTIATE ends configured or released, and which of the two its checks decide (40_disc_rasterizer.md R110, R111). -/
theorem valid_after_negotiate_iff {w h : BitVec 16} {num den : BitVec 32}
    (hexec : exec (.negotiate w h num den) s = .next t) :
    t.valid = true ↔ AcceptedFormat s.cfg.maskCap w.toNat h.toNat num.toInt den.toInt := by
  obtain ⟨u, r, effect, rfl⟩ := exec_effect hexec
  cases effect with
  | rejected _ _ _ _ code failed =>
    have not_accepted : ¬ AcceptedFormat s.cfg.maskCap w.toNat h.toNat num.toInt den.toInt := fun accepted =>
      nomatch failed.symm.trans ((negotiateError_eq_none_iff ..).2 accepted)
    exact iff_of_false (Bool.eq_false_iff.1 s.release_valid) not_accepted
  | installed _ _ _ _ std accepted =>
    exact iff_of_true (s.install_valid w h (frameRate num den) (overlayColor std s.range)) accepted
  | kept _ _ notNegotiate => exact absurd rfl (notNegotiate w h num den)

/-- VALID is read from STATUS, which only NEGOTIATE and EOS write (10_state.md R23). -/
theorem valid_after_other {i : Instr} (hexec : exec i s = .next t)
    (notNegotiate : ∀ w h num den, i ≠ .negotiate w h num den) (notEos : i ≠ .eos) : t.valid = s.valid := by
  obtain ⟨-, -, -, configuration, -⟩ := stateIsWrittenOnlyByItsOwners i s t hexec
  obtain ⟨status, -⟩ := configuration notNegotiate notEos
  exact State.valid_congr status

/-- EOS releases (43_control_readback.md R182). -/
theorem valid_after_eos (hexec : exec .eos s = .next t) : t.valid = false := by
  cases (eosReleasesTheConfiguration s).symm.trans hexec
  exact s.release_valid

end

/-- Settles O49: NEGOTIATE and EOS each move VALID in their own way; no other command reaches STATUS. -/
theorem validFollowsTheStateDiagram : Obligations.ValidFollowsTheStateDiagram := by
  intro i s t hexec
  cases i with
  | negotiate => exact valid_after_negotiate_iff hexec
  | eos => exact valid_after_eos hexec
  | frame | convert | wrctrl | rdreg | rdmask => exact valid_after_other hexec nofun nofun

/-! ### What samples CTRL -/

/-- RNG is bit 4 of CTRL (10_state.md R24). -/
theorem State.range_eq (s : State) : s.range = if s.ctrl.getLsbD 4 then .studio else .full := by
  have field : ∀ ctrl : BitVec 5,
      Range.ofBit (ctrl.extractLsb' 4 1) = if ctrl.getLsbD 4 then .studio else .full := by decide
  exact field s.ctrl

/-- An accepted NEGOTIATE converts under the STD and the RNG that are in CTRL then (40_disc_rasterizer.md R112). -/
theorem exec_negotiate_color {s : State} {std : Standard} {w h : BitVec 16} {num den : BitVec 32}
    (accepted : AcceptedFormat s.cfg.maskCap w.toNat h.toNat num.toInt den.toInt)
    (bits : std.bits = s.ctrl.extractLsb' 2 2) :
    ∃ u, exec (.negotiate w h num den) s = .next u ∧
      u.color = (rgbToYuvExact 255 0 0 std (if s.ctrl.getLsbD 4 then .studio else .full)).packed := by
  have standard : s.standard = some std := Standard.ofBits_eq_some_iff.2 bits
  obtain ⟨u, answers, -, -, -, -, color, -⟩ := negotiateInstallsRateAndColour s w h num den std accepted standard
  exact ⟨u, answers, s.range_eq ▸ color⟩

/-- Settles O45: WRCTRL leaves the old state with the new CTRL; NEGOTIATE converts under that state's STD and RNG (O17),
and FRAME decides by that state's SHOW (O33, O34). -/
theorem colourIsSampledAtNegotiate : Obligations.ColourIsSampledAtNegotiate := by
  intro s value legal
  obtain ⟨controls, -⟩ := wrctrlWritesCtrlWhole s value
  refine ⟨_, controls legal, rfl, ?_, ?_, ?_⟩
  · intro _ _ _ _ _ accepted bits
    exact exec_negotiate_color accepted bits
  · intro len valid long off
    obtain ⟨-, -, -, showOff, -⟩ := framePassesThroughForTheFirstReason _ len true
    exact ⟨_, showOff valid rfl long off, rfl⟩
  · intro len inv valid long showing phase_visible
    have draws := frameDrawsTheDiscInRasterOrder _ len (exec_inv inv (controls legal))
    exact ⟨_, draws valid long showing phase_visible, rfl⟩

end Sys2Proof.Machine
end

section
/-! The reset input: the host's move that applies reset between commands (70_reset_and_hazards.md R220). -/

namespace Sys2Proof.Machine

/-- Reset as the host's next move is taken as reset, whatever the port holds (70_reset_and_hazards.md R220). -/
theorem State.takeMove_reset {s : State} {rest : List HostMove} (hhost : s.host = .reset :: rest) :
    s.takeMove = .resetTo (s.afterReset rest) := by
  simp only [State.takeMove, hhost]

/-- Settles O2: the step takes the move as reset and answers with the state after it. -/
theorem resetInputGivesTheResetState : Obligations.ResetInputGivesTheResetState := by
  intro s rest hhost
  simp only [step, State.takeMove_reset hhost, State.afterReset]

end Sys2Proof.Machine
end
